-- ==== Sys2Proof/Word.lean ====
section
/-! DEFINITION. The value types of the engine (spec/00_scope.md R8, R11): every value is unsigned,
and bit 0 is the least significant bit. -/

namespace Sys2Proof

/-- A memory byte, a general register, a timer, an immediate byte `kk`. -/
abbrev Byte := BitVec 8

/-- A 16-bit value: the index register, the program counter, a stack slot, an instruction word. -/
abbrev Word := BitVec 16

/-- A 4-bit field of an instruction word: a register number `x` or `y`, a height `n`, a key code. -/
abbrev Nibble := BitVec 4

/-- The 12-bit address field `nnn`. -/
abbrev Addr12 := BitVec 12

end Sys2Proof
end

