-- ==== Sys2Proof/Syntax.lean ====
section
/-! DEFINITION. The decoded operations (spec/30_encoding.md R95 to R97): one constructor for each row of
spec/opcode_table.json, carrying the operand fields of its kind, and that row's mask and match. -/

namespace Sys2Proof

/-- The 34 instructions and the `Unknown` class (R97). `SHR` and `SHL` carry `y`, which they ignore, so that
decoding loses no bit. -/
inductive Instr where
  /-- `00E0` `CLS` -/
  | cls
  /-- `00EE` `RET` -/
  | ret
  /-- `1nnn` `JP nnn` -/
  | jp (nnn : Addr12)
  /-- `2nnn` `CALL nnn` -/
  | call (nnn : Addr12)
  /-- `3xkk` `SE Vx, kk` -/
  | seImm (x : Nibble) (kk : Byte)
  /-- `4xkk` `SNE Vx, kk` -/
  | sneImm (x : Nibble) (kk : Byte)
  /-- `5xy0` `SE Vx, Vy` -/
  | seReg (x y : Nibble)
  /-- `6xkk` `LD Vx, kk` -/
  | ldImm (x : Nibble) (kk : Byte)
  /-- `7xkk` `ADD Vx, kk` -/
  | addImm (x : Nibble) (kk : Byte)
  /-- `8xy0` `LD Vx, Vy` -/
  | ldReg (x y : Nibble)
  /-- `8xy1` `OR Vx, Vy` -/
  | orReg (x y : Nibble)
  /-- `8xy2` `AND Vx, Vy` -/
  | andReg (x y : Nibble)
  /-- `8xy3` `XOR Vx, Vy` -/
  | xorReg (x y : Nibble)
  /-- `8xy4` `ADD Vx, Vy` -/
  | addReg (x y : Nibble)
  /-- `8xy5` `SUB Vx, Vy` -/
  | sub (x y : Nibble)
  /-- `8xy6` `SHR Vx {, Vy}` -/
  | shr (x y : Nibble)
  /-- `8xy7` `SUBN Vx, Vy` -/
  | subn (x y : Nibble)
  /-- `8xyE` `SHL Vx {, Vy}` -/
  | shl (x y : Nibble)
  /-- `9xy0` `SNE Vx, Vy` -/
  | sneReg (x y : Nibble)
  /-- `Annn` `LD I, nnn` -/
  | ldI (nnn : Addr12)
  /-- `Bnnn` `JP V0, nnn` -/
  | jpV0 (nnn : Addr12)
  /-- `Cxkk` `RND Vx, kk` -/
  | rnd (x : Nibble) (kk : Byte)
  /-- `Dxyn` `DRW Vx, Vy, n` -/
  | drw (x y n : Nibble)
  /-- `Ex9E` `SKP Vx` -/
  | skp (x : Nibble)
  /-- `ExA1` `SKNP Vx` -/
  | sknp (x : Nibble)
  /-- `Fx07` `LD Vx, DT` -/
  | ldVxDt (x : Nibble)
  /-- `Fx0A` `LD Vx, K` -/
  | ldVxK (x : Nibble)
  /-- `Fx15` `LD DT, Vx` -/
  | ldDtVx (x : Nibble)
  /-- `Fx18` `LD ST, Vx` -/
  | ldStVx (x : Nibble)
  /-- `Fx1E` `ADD I, Vx` -/
  | addI (x : Nibble)
  /-- `Fx29` `LD F, Vx` -/
  | ldF (x : Nibble)
  /-- `Fx33` `LD B, Vx` -/
  | ldB (x : Nibble)
  /-- `Fx55` `LD [I], Vx` -/
  | ldMemVx (x : Nibble)
  /-- `Fx65` `LD Vx, [I]` -/
  | ldVxMem (x : Nibble)
  /-- every word that matches no other row: `Unknown(word)` (R98) -/
  | unknown (word : Word)
  deriving DecidableEq, Repr

/-- One row of the opcode map: a word `w` selects it iff `w AND mask = match` (spec/30_encoding.md). -/
structure Row where
  mask : Word
  bits : Word
  deriving DecidableEq, Repr

/-- Does the word select the row? -/
def Row.selects (r : Row) (w : Word) : Bool := (w &&& r.mask) == r.bits

/-- The row of each instruction, its mask and match as spec/opcode_table.json gives them. -/
def Instr.row : Instr → Row
  | .cls => ⟨0xFFFF, 0x00E0⟩
  | .ret => ⟨0xFFFF, 0x00EE⟩
  | .jp _ => ⟨0xF000, 0x1000⟩
  | .call _ => ⟨0xF000, 0x2000⟩
  | .seImm _ _ => ⟨0xF000, 0x3000⟩
  | .sneImm _ _ => ⟨0xF000, 0x4000⟩
  | .seReg _ _ => ⟨0xF00F, 0x5000⟩
  | .ldImm _ _ => ⟨0xF000, 0x6000⟩
  | .addImm _ _ => ⟨0xF000, 0x7000⟩
  | .ldReg _ _ => ⟨0xF00F, 0x8000⟩
  | .orReg _ _ => ⟨0xF00F, 0x8001⟩
  | .andReg _ _ => ⟨0xF00F, 0x8002⟩
  | .xorReg _ _ => ⟨0xF00F, 0x8003⟩
  | .addReg _ _ => ⟨0xF00F, 0x8004⟩
  | .sub _ _ => ⟨0xF00F, 0x8005⟩
  | .shr _ _ => ⟨0xF00F, 0x8006⟩
  | .subn _ _ => ⟨0xF00F, 0x8007⟩
  | .shl _ _ => ⟨0xF00F, 0x800E⟩
  | .sneReg _ _ => ⟨0xF00F, 0x9000⟩
  | .ldI _ => ⟨0xF000, 0xA000⟩
  | .jpV0 _ => ⟨0xF000, 0xB000⟩
  | .rnd _ _ => ⟨0xF000, 0xC000⟩
  | .drw _ _ _ => ⟨0xF000, 0xD000⟩
  | .skp _ => ⟨0xF0FF, 0xE09E⟩
  | .sknp _ => ⟨0xF0FF, 0xE0A1⟩
  | .ldVxDt _ => ⟨0xF0FF, 0xF007⟩
  | .ldVxK _ => ⟨0xF0FF, 0xF00A⟩
  | .ldDtVx _ => ⟨0xF0FF, 0xF015⟩
  | .ldStVx _ => ⟨0xF0FF, 0xF018⟩
  | .addI _ => ⟨0xF0FF, 0xF01E⟩
  | .ldF _ => ⟨0xF0FF, 0xF029⟩
  | .ldB _ => ⟨0xF0FF, 0xF033⟩
  | .ldMemVx _ => ⟨0xF0FF, 0xF055⟩
  | .ldVxMem _ => ⟨0xF0FF, 0xF065⟩
  | .unknown _ => ⟨0x0000, 0x0000⟩

end Sys2Proof
end

