-- ==== Sys2Proof/WellFormed.lean ====
section
/-! DEFINITION. Which instructions are well-formed. The widths of the fields are in their types, so the one
check left is that `Unknown(word)` carries a word no defined row selects (spec/30_encoding.md R98). -/

namespace Sys2Proof

/-- The 34 defined rows of spec/opcode_table.json, the fallback row left out. -/
def definedRows : List Row :=
  [Instr.cls.row, Instr.ret.row, (Instr.jp 0).row, (Instr.call 0).row, (Instr.seImm 0 0).row,
    (Instr.sneImm 0 0).row, (Instr.seReg 0 0).row, (Instr.ldImm 0 0).row, (Instr.addImm 0 0).row]
  ++ [(Instr.ldReg 0 0).row, (Instr.orReg 0 0).row, (Instr.andReg 0 0).row, (Instr.xorReg 0 0).row,
    (Instr.addReg 0 0).row, (Instr.sub 0 0).row, (Instr.shr 0 0).row, (Instr.subn 0 0).row,
    (Instr.shl 0 0).row]
  ++ [(Instr.sneReg 0 0).row, (Instr.ldI 0).row, (Instr.jpV0 0).row, (Instr.rnd 0 0).row,
    (Instr.drw 0 0 0).row, (Instr.skp 0).row, (Instr.sknp 0).row]
  ++ [(Instr.ldVxDt 0).row, (Instr.ldVxK 0).row, (Instr.ldDtVx 0).row, (Instr.ldStVx 0).row,
    (Instr.addI 0).row, (Instr.ldF 0).row, (Instr.ldB 0).row, (Instr.ldMemVx 0).row,
    (Instr.ldVxMem 0).row]

/-- A word some defined row selects. -/
def assigned (w : Word) : Bool := definedRows.any fun r => r.selects w

/-- Well-formedness of an instruction. -/
def Instr.wellFormed : Instr → Bool
  | .cls => true
  | .ret => true
  | .jp _ => true
  | .call _ => true
  | .seImm _ _ => true
  | .sneImm _ _ => true
  | .seReg _ _ => true
  | .ldImm _ _ => true
  | .addImm _ _ => true
  | .ldReg _ _ => true
  | .orReg _ _ => true
  | .andReg _ _ => true
  | .xorReg _ _ => true
  | .addReg _ _ => true
  | .sub _ _ => true
  | .shr _ _ => true
  | .subn _ _ => true
  | .shl _ _ => true
  | .sneReg _ _ => true
  | .ldI _ => true
  | .jpV0 _ => true
  | .rnd _ _ => true
  | .drw _ _ _ => true
  | .skp _ => true
  | .sknp _ => true
  | .ldVxDt _ => true
  | .ldVxK _ => true
  | .ldDtVx _ => true
  | .ldStVx _ => true
  | .addI _ => true
  | .ldF _ => true
  | .ldB _ => true
  | .ldMemVx _ => true
  | .ldVxMem _ => true
  | .unknown w => !assigned w

end Sys2Proof
end

