-- ==== Sys2Proof/Decode.lean ====
section
/-! DEFINITION. The decoder (spec/30_encoding.md R90 to R98), then the encoder (R102), and the decoding of a
word numbered as spec/opcode_table.json numbers it. -/

namespace Sys2Proof

/-- `word[15:12]` (R91). -/
def opField (w : Word) : Nibble := w.extractLsb' 12 4

/-- `word[11:8]` (R92). -/
def xField (w : Word) : Nibble := w.extractLsb' 8 4

/-- `word[7:4]` (R92). -/
def yField (w : Word) : Nibble := w.extractLsb' 4 4

/-- `word[3:0]` (R92). -/
def nField (w : Word) : Nibble := w.extractLsb' 0 4

/-- `word[7:0]` (R92). -/
def kkField (w : Word) : Byte := w.extractLsb' 0 8

/-- `word[11:0]` (R92). -/
def nnnField (w : Word) : Addr12 := w.extractLsb' 0 12

/-- Family 0: only `00E0` and `00EE` are instructions (R95). -/
def decodeFamily0 (w : Word) : Instr :=
  if w = 0x00E0 then .cls else if w = 0x00EE then .ret else .unknown w

/-- Family 8, by the trailing nibble (R95). -/
def decodeFamily8 (w : Word) : Instr :=
  let x := xField w
  let y := yField w
  match (nField w).toNat with
  | 0x0 => .ldReg x y
  | 0x1 => .orReg x y
  | 0x2 => .andReg x y
  | 0x3 => .xorReg x y
  | 0x4 => .addReg x y
  | 0x5 => .sub x y
  | 0x6 => .shr x y
  | 0x7 => .subn x y
  | 0xE => .shl x y
  | _ => .unknown w

/-- Family E, by the trailing byte (R95). -/
def decodeFamilyE (w : Word) : Instr :=
  match (kkField w).toNat with
  | 0x9E => .skp (xField w)
  | 0xA1 => .sknp (xField w)
  | _ => .unknown w

/-- Family F, by the trailing byte (R95). -/
def decodeFamilyF (w : Word) : Instr :=
  let x := xField w
  match (kkField w).toNat with
  | 0x07 => .ldVxDt x
  | 0x0A => .ldVxK x
  | 0x15 => .ldDtVx x
  | 0x18 => .ldStVx x
  | 0x1E => .addI x
  | 0x29 => .ldF x
  | 0x33 => .ldB x
  | 0x55 => .ldMemVx x
  | 0x65 => .ldVxMem x
  | _ => .unknown w

/-- `Decode(word)` (R95): pure and total on the 65,536 words; an unassigned word is `Unknown(word)` (R98). -/
def decodeWord (w : Word) : Instr :=
  match (opField w).toNat with
  | 0x0 => decodeFamily0 w
  | 0x1 => .jp (nnnField w)
  | 0x2 => .call (nnnField w)
  | 0x3 => .seImm (xField w) (kkField w)
  | 0x4 => .sneImm (xField w) (kkField w)
  | 0x5 => if nField w = 0 then .seReg (xField w) (yField w) else .unknown w
  | 0x6 => .ldImm (xField w) (kkField w)
  | 0x7 => .addImm (xField w) (kkField w)
  | 0x8 => decodeFamily8 w
  | 0x9 => if nField w = 0 then .sneReg (xField w) (yField w) else .unknown w
  | 0xA => .ldI (nnnField w)
  | 0xB => .jpV0 (nnnField w)
  | 0xC => .rnd (xField w) (kkField w)
  | 0xD => .drw (xField w) (yField w) (nField w)
  | 0xE => decodeFamilyE w
  | _ => decodeFamilyF w

/-- The word of two fetched bytes: the byte at the lower address is the high one (spec/20_memory.md R66). -/
def wordOfBytes (hi lo : Byte) : Word := hi ++ lo

/-- Why a sequence of bytes holds no instruction. -/
inductive DecodeError where
  /-- fewer than the two bytes every instruction has (R90) -/
  | tooShort
  deriving DecidableEq, Repr

/-- Decoding of a byte sequence: the instruction in its first two bytes, and the bytes after it. -/
def decode : List Byte → Except DecodeError (Instr × List Byte)
  | hi :: lo :: rest => .ok (decodeWord (wordOfBytes hi lo), rest)
  | _ => .error .tooShort

/-- Format `NNN`: `Annn` (R93). -/
def encodeNnn (op : Nibble) (nnn : Addr12) : Word := op ++ nnn

/-- Format `XKK`: `Axkk` (R93); format `X` is the same with `kk` fixed. -/
def encodeXkk (op x : Nibble) (kk : Byte) : Word := op ++ (x ++ kk : Addr12)

/-- Format `XYN`: `Axyn` (R93); format `XY` is the same with `n` fixed. -/
def encodeXyn (op x y n : Nibble) : Word := op ++ (x ++ (y ++ n : Byte) : Addr12)

/-- The encoder (R102): the fixed nibbles of the pattern (R96) and the fields at the positions of R92. -/
def encode : Instr → Word
  | .cls => 0x00E0
  | .ret => 0x00EE
  | .jp nnn => encodeNnn 0x1 nnn
  | .call nnn => encodeNnn 0x2 nnn
  | .seImm x kk => encodeXkk 0x3 x kk
  | .sneImm x kk => encodeXkk 0x4 x kk
  | .seReg x y => encodeXyn 0x5 x y 0x0
  | .ldImm x kk => encodeXkk 0x6 x kk
  | .addImm x kk => encodeXkk 0x7 x kk
  | .ldReg x y => encodeXyn 0x8 x y 0x0
  | .orReg x y => encodeXyn 0x8 x y 0x1
  | .andReg x y => encodeXyn 0x8 x y 0x2
  | .xorReg x y => encodeXyn 0x8 x y 0x3
  | .addReg x y => encodeXyn 0x8 x y 0x4
  | .sub x y => encodeXyn 0x8 x y 0x5
  | .shr x y => encodeXyn 0x8 x y 0x6
  | .subn x y => encodeXyn 0x8 x y 0x7
  | .shl x y => encodeXyn 0x8 x y 0xE
  | .sneReg x y => encodeXyn 0x9 x y 0x0
  | .ldI nnn => encodeNnn 0xA nnn
  | .jpV0 nnn => encodeNnn 0xB nnn
  | .rnd x kk => encodeXkk 0xC x kk
  | .drw x y n => encodeXyn 0xD x y n
  | .skp x => encodeXkk 0xE x 0x9E
  | .sknp x => encodeXkk 0xE x 0xA1
  | .ldVxDt x => encodeXkk 0xF x 0x07
  | .ldVxK x => encodeXkk 0xF x 0x0A
  | .ldDtVx x => encodeXkk 0xF x 0x15
  | .ldStVx x => encodeXkk 0xF x 0x18
  | .addI x => encodeXkk 0xF x 0x1E
  | .ldF x => encodeXkk 0xF x 0x29
  | .ldB x => encodeXkk 0xF x 0x33
  | .ldMemVx x => encodeXkk 0xF x 0x55
  | .ldVxMem x => encodeXkk 0xF x 0x65
  | .unknown w => w

/-- The byte of an instruction word at the lower address (R66). -/
def highByte (w : Word) : Byte := w.extractLsb' 8 8

/-- The byte of an instruction word at the higher address (R66). -/
def lowByte (w : Word) : Byte := w.extractLsb' 0 8

/-- The bytes of a word as memory holds it, the high byte at the lower address (R66). -/
def bytesOfWord (w : Word) : List Byte := [highByte w, lowByte w]

/-- The 16-bit word whose low `nbits` bits are those of `w` and whose other bits are zero. -/
def tableWord (nbits w : Nat) : Word := BitVec.ofNat 16 (w % 2 ^ nbits)

/-- The instruction the decoder reads from a word of `nbits` bits; no instruction is longer than 16 bits (R90). -/
def decodeTableWord (nbits w : Nat) : Option Instr :=
  if nbits ≤ 16 then
    match decode (bytesOfWord (tableWord nbits w)) with
    | .ok (i, _) => some i
    | .error _ => none
  else none

end Sys2Proof
end

