-- ==== Sys2Proof/Config.lean ====
section
/-! DEFINITION. What is fixed for the block (spec/00_scope.md R8, the parameters of the source) and
the environment it is driven by (spec/10_state.md R45 to R52), with the free values of the model.
The parameters a model takes as an argument stand in Machine/Params.lean. -/

namespace Sys2Proof

/-- `MEM_SIZE` (R8): legal addresses are 0 .. 4095. -/
def Config.memSize : Nat := 4096

/-- `RESERVED_END` (R8): the first writable address, where the image is loaded and execution starts. -/
def Config.reservedEnd : Nat := 512

/-- `STACK_DEPTH` (R8). -/
def Config.stackDepth : Nat := 16

/-- `IMAGE_MAX` (R8): the longest program image that is accepted, 3584 bytes. -/
def Config.imageMax : Nat := Config.memSize - Config.reservedEnd

/-- `GLYPH_BYTES` (R8): bytes per glyph; glyph `d` stands at address `5 * d` (R40). -/
def Config.glyphBytes : Nat := 5

/-- The four triggers that make the block change state (R51). -/
inductive Trigger where
  /-- the host asserts `Reset` (R270) -/
  | reset
  /-- the host asserts `LoadImage(bytes)` (R274) -/
  | loadImage (bytes : List Byte)
  /-- the host asserts `step` (R120) -/
  | step
  /-- the environment asserts `tick` (R256) -/
  | tick
  deriving DecidableEq, Repr, Inhabited

/-- The inputs presented for the whole of one transition (R45 to R48, R277). -/
structure Inputs where
  /-- `keys`: bit `k` is set iff key `k` is down (R45) -/
  keys : BitVec 16
  /-- what the input collaborator offers as `key_pick`; `State.keyPick` is the admissible key the core
  samples (R46) -/
  keyPick : Nibble
  /-- `rand_in`: one byte of the random source (R47) -/
  randIn : Byte
  /-- the coordinates at which `disp_pixel` answers 1, in the unwrapped coordinates of R48 -/
  display : List (Nat × Nat)
  deriving DecidableEq, Repr, Inhabited

/-- What the environment does next: one trigger, and the inputs presented with it (R51, R277). -/
structure Stimulus where
  trigger : Trigger
  inputs : Inputs
  deriving DecidableEq, Repr, Inhabited

/-- FREE VALUE: the stimuli that follow the schedule held in State, one for each number drawn. No body:
nothing is known of which triggers come, in which order, or with which inputs (R46, R47, R48, R52;
DESIGN CHOICE, safe, log entries 1 and 2). -/
opaque Config.stimulus : Nat → Stimulus

end Sys2Proof
end

