-- ==== Sys2Proof/Machine/Params.lean ====
section
/-! DEFINITION. The parameters that R8 and R41 tell a model to take as an argument (spec/00_scope.md R8,
spec/10_state.md R40, R41): their type, the values the spec gives them, and the reset contents of memory. -/

namespace Sys2Proof.Machine

/-- The values of `PC_ADVANCE_LIMIT` (R8, R27). -/
inductive AdvanceLimit where
  /-- 4096: the instruction at address 4094 is executed -/
  | capacity
  /-- 4095, the alternative: the instruction at address 4094 is fetched and the advance faults -/
  | lastAddress
  deriving DecidableEq, Repr

/-- The values of `VF_WRITE_ORDER` (R8, R167). -/
inductive VfWriteOrder where
  /-- the flag is written first and the result second, so a result in register 15 survives -/
  | flagThenResult
  /-- the result is written first and the flag second, so register 15 ends as the flag -/
  | resultThenFlag
  deriving DecidableEq, Repr

/-- The values of `SHIFT_SOURCE` (R8, R170). -/
inductive ShiftSource where
  /-- the shifts shift `V[x]` in place -/
  | vx
  /-- the shifts read `V[y]` and write `V[x]` -/
  | vy
  deriving DecidableEq, Repr

/-- The parameters of one block, fixed for as long as it exists (log entry 27). -/
structure Params where
  /-- `PC_ADVANCE_LIMIT`: the advance faults iff `pc + 2` is above it (R27) -/
  pcAdvanceLimit : AdvanceLimit
  /-- `VF_WRITE_ORDER` (R167) -/
  vfWriteOrder : VfWriteOrder
  /-- `SHIFT_SOURCE` (R170) -/
  shiftSource : ShiftSource
  /-- `GLYPH_ROM`: the bytes at 0 .. 79 (R41) -/
  glyphRom : Vector Byte 80
  /-- `RESERVED_FILL`: the byte at each of 80 .. 511 (R40) -/
  reservedFill : Byte
  deriving DecidableEq, Repr

/-- The number a limit stands for (R8). -/
def AdvanceLimit.value : AdvanceLimit → Nat
  | .capacity => 4096
  | .lastAddress => 4095

/-- The table of R41, sixteen glyphs of five bytes. UNVERIFIED, unsafe for claims about these bytes: the spec's
decision D8, from general knowledge (log entry 6). -/
def customaryGlyphs : List Byte :=
  ([0xF0, 0x90, 0x90, 0x90, 0xF0] ++ [0x20, 0x60, 0x20, 0x20, 0x70]
    ++ [0xF0, 0x10, 0xF0, 0x80, 0xF0] ++ [0xF0, 0x10, 0xF0, 0x10, 0xF0])
  ++ ([0x90, 0x90, 0xF0, 0x10, 0x10] ++ [0xF0, 0x80, 0xF0, 0x10, 0xF0]
    ++ [0xF0, 0x80, 0xF0, 0x90, 0xF0] ++ [0xF0, 0x10, 0x20, 0x40, 0x40])
  ++ ([0xF0, 0x90, 0xF0, 0x90, 0xF0] ++ [0xF0, 0x90, 0xF0, 0x10, 0xF0]
    ++ [0xF0, 0x90, 0xF0, 0x90, 0x90] ++ [0xE0, 0x90, 0xE0, 0x90, 0xE0])
  ++ ([0xF0, 0x80, 0x80, 0x80, 0xF0] ++ [0xE0, 0x90, 0x90, 0x90, 0xE0]
    ++ [0xF0, 0x80, 0xF0, 0x80, 0xF0] ++ [0xF0, 0x80, 0xF0, 0x80, 0x80])

/-- The values the spec gives the parameters. UNVERIFIED, unsafe: its decisions D10, D15, D16 and D8 (log entries 8,
9, 10 and 6). -/
def Params.spec : Params where
  pcAdvanceLimit := .capacity
  vfWriteOrder := .flagThenResult
  shiftSource := .vx
  glyphRom := ⟨customaryGlyphs.toArray, rfl⟩
  reservedFill := 0x00

/-- What each address holds after reset: the glyphs at 0 .. 79, `RESERVED_FILL` at 80 .. 511, zero in the writable
region (R40, R41, R54). -/
def Params.resetByte (p : Params) (a : Nat) : Byte :=
  if h : a < 80 then p.glyphRom[a]
  else if a < Config.reservedEnd then p.reservedFill
  else 0x00

/-- What an address that memory does not list reads as: the reset contents under the spec's values (log entry 7). A
block with other parameters lists the bytes below 512 in which it differs. -/
def unlistedByte (a : Nat) : Byte := Params.spec.resetByte a

end Sys2Proof.Machine
end

