-- ==== Sys2Proof/Machine/State.lean ====
section
/-! DEFINITION. The state of the block as plain data (spec/10_state.md R20, R44, R54), the outputs of the latest
transition, the environment's stimuli in store, and the state after reset. -/

namespace Sys2Proof.Machine

/-- The run state `RUN` (R42). -/
inductive RunState where
  /-- after `Reset`, before an image has been accepted -/
  | poweredOff
  /-- the only active state -/
  | running
  /-- after a fatal fault; only `Reset` leaves it -/
  | halted
  deriving DecidableEq, Repr

/-- The fault codes of R241, numbered 0 to 5 there. -/
inductive FaultCode where
  /-- code 0: no fault recorded -/
  | none
  /-- code 1, fatal: an address outside the 4096 bytes -/
  | outOfBounds
  /-- code 2, fatal: a write below 512 -/
  | protectedRegion
  /-- code 3, fatal: `CALL` with 16 return addresses held -/
  | stackOverflow
  /-- code 4, fatal: `RET` with none held -/
  | stackUnderflow
  /-- code 5, a load-time rejection, never recorded in `FAULT` -/
  | imageTooLarge
  deriving DecidableEq, Repr

/-- The fault record `FAULT`: a code of 3 bits and an information word of 17 bits (R43, R44). -/
structure FaultRecord where
  code : FaultCode
  info : BitVec 17
  deriving DecidableEq, Repr

/-- Which timer a `TimerChange` names (R49). -/
inductive TimerName where
  | dt
  | st
  deriving DecidableEq, Repr

/-- The events of a step (R49). -/
inductive Event where
  /-- `DRW`: the origin and the rows, row 0 first -/
  | drawRequest (originX originY : Byte) (rows : List Byte)
  /-- `CLS` -/
  | clearRequest
  /-- `LD Vx, K` in a step that finds no key down: the register that waits -/
  | keyWaitRequest (x : Nibble)
  /-- `LD DT, Vx` and `LD ST, Vx`: the value written -/
  | timerChange (which : TimerName) (value : Byte)
  /-- the word that decoded to `Unknown` -/
  | diagnostic (word : Word)
  /-- the fatal fault that ended the step -/
  | faultReport (code : FaultCode) (info : BitVec 17)
  deriving DecidableEq, Repr

/-- What `LoadImage` reports to the host when it rejects an image: code 5 and the image's length (R241, R274). -/
structure HostReport where
  code : FaultCode
  length : Nat
  deriving DecidableEq, Repr

/-- Memory: address and byte pairs, addresses strictly rising, no entry equal to what an unlisted address reads
as (`Memory.wf`, `unlistedByte`). -/
abbrev Memory := List Host.Cell

/-- The whole state. The fields from `v` to `fault` are the architectural state of R20; `params` are the
parameters R8 tells a model to take, which nothing changes (log entry 27); the last four are the model's own (log
entries 1, 3 and 14). -/
structure State where
  /-- `V[0]` .. `V[15]` (R21); `V[15]` is the flag register (R22) -/
  v : Vector Byte 16
  /-- the index register `I` (R34) -/
  i : Word
  /-- the program counter (R25) -/
  pc : Word
  /-- the call-stack slots (R30) -/
  stack : Vector Word 16
  /-- `SP`, the number of return addresses held, 0 .. 16 (R30) -/
  sp : Fin 17
  /-- the delay timer (R36) -/
  dt : Byte
  /-- the sound timer (R37) -/
  st : Byte
  /-- the byte memory (R38) -/
  mem : Memory
  /-- the run state (R42) -/
  run : RunState
  /-- the fault record (R43) -/
  fault : FaultRecord
  /-- the parameters of this block (R8, R41), fixed for as long as it exists -/
  params : Params
  /-- the stimuli the environment has in store, earliest first; then `Config.stimulus` answers -/
  schedule : List Stimulus
  /-- how many stimuli have been drawn from `Config.stimulus` -/
  drawn : Nat
  /-- output: the event record of the latest transition (R17, R49) -/
  events : List Event
  /-- output: the report of the latest transition, if it was a rejected `LoadImage` (R274) -/
  hostReport : Option HostReport
  deriving DecidableEq, Repr

/-- Reasons a step ends in a fault outcome: none. Every fault of the spec (R240) has an entry the spec describes
(R246), so it is taken as a next state with `RUN` Halted and `FAULT` recorded, never as this outcome; nothing
raises it (safe, log entry 12). -/
inductive Fault
  deriving DecidableEq, Repr

/-- Reasons a step is refused. -/
inductive Refusal where
  /-- raised by an arm of `exec` whose instruction has no meaning yet; no arm is left that does (safe) -/
  | notModelled (mnemonic : String)
  deriving DecidableEq, Repr

/-- The outcome of an instruction or a step. -/
abbrev Result := Host.Outcome State Fault Refusal

/-- The state after `Reset` (R54, R270) of a block whose parameters are the spec's values; `State.resetWith` is that
of any block. The stack slots, which the spec leaves unspecified, and the model's own
fields have the values log entries 3 and 5 name. -/
def State.reset : State where
  v := Vector.replicate 16 0x00
  i := 0x0000
  pc := 512
  stack := Vector.replicate 16 0x0000
  sp := 0
  dt := 0x00
  st := 0x00
  mem := []
  run := .poweredOff
  fault := ⟨.none, 0⟩
  params := Params.spec
  schedule := []
  drawn := 0
  events := []
  hostReport := none

end Sys2Proof.Machine
end

