-- ==== Sys2Proof/Machine/Ops.lean ====
section
/-! DEFINITION. The named operations over registers, memory, the stack and the program counter, and the taking of
a fatal fault (spec/00_scope.md R13 to R17, spec/10_state.md R27, R31, R32, spec/20_memory.md R60 to R70,
spec/60_exceptions.md R246). -/

namespace Sys2Proof.Machine

/-! ### Memory as data -/

/-- The byte at an address: the listed one, or `unlistedByte`. -/
def Memory.read : Memory → Nat → Byte
  | [], a => unlistedByte a
  | (k, b) :: m, a => if a < k then unlistedByte a else if a = k then b else Memory.read m a

/-- Store a byte and keep the canonical form: storing what an unlisted address reads as
removes the entry. -/
def Memory.set : Memory → Nat → Byte → Memory
  | [], a, b => if b = unlistedByte a then [] else [(a, b)]
  | (k, c) :: m, a, b =>
    if a < k then (if b = unlistedByte a then (k, c) :: m else (a, b) :: (k, c) :: m)
    else if a = k then (if b = unlistedByte a then m else (a, b) :: m)
    else (k, c) :: Memory.set m a b

/-- Store a sequence of bytes upward from an address. -/
def Memory.setBytes : Memory → Nat → List Byte → Memory
  | m, _, [] => m
  | m, a, b :: bs => Memory.setBytes (Memory.set m a b) (a + 1) bs

/-- The canonical form: addresses exist and rise strictly, and no entry equals what an unlisted
address reads as. -/
def Memory.wf : Memory → Bool
  | [] => true
  | (a, b) :: m =>
    decide (a < Config.memSize) && decide (b ≠ unlistedByte a) && m.all (fun c => decide (a < c.1))
      && Memory.wf m

/-- Memory after construction or reset of a block with the given parameters: the reserved region holds its contents
and the rest is zero (R40, R54). Irreducible, so that a comparison of two states does not compute 512 stores;
`Memory.read_construct` and `Memory.construct_spec` say what it is. -/
@[irreducible] def Memory.construct (p : Params) : Memory :=
  Memory.setBytes [] 0 ((List.range Config.reservedEnd).map p.resetByte)

/-- The state right after `Reset` of a block with the given parameters (R54, R270). -/
def State.resetWith (p : Params) : State := { State.reset with mem := Memory.construct p, params := p }

/-! ### Registers -/

/-- `V[x]` (R12). -/
def State.reg (s : State) (x : Nibble) : Byte := s.v[x.toNat]'x.isLt

/-- `V[x] <- b` (R12); every register is an ordinary one, register 15 included (R21, R22). -/
def State.setReg (s : State) (x : Nibble) (b : Byte) : State := { s with v := s.v.set x.toNat b x.isLt }

/-- `VF`, the flag register (R22). -/
def State.vf (s : State) : Byte := s.reg 15

/-- `I <- w` (R34). -/
def State.setI (s : State) (w : Word) : State := { s with i := w }

/-- `pc <- w` (R12). -/
def State.setPc (s : State) (w : Word) : State := { s with pc := w }

/-- `DT <- b` (R36). -/
def State.setDt (s : State) (b : Byte) : State := { s with dt := b }

/-- `ST <- b` (R37). -/
def State.setSt (s : State) (b : Byte) : State := { s with st := b }

/-- Replace the memory. -/
def State.setMem (s : State) (m : Memory) : State := { s with mem := m }

/-- `emit` (R17): one event is added to the event record. -/
def State.emit (s : State) (e : Event) : State := { s with events := s.events ++ [e] }

/-- The `tone` output (R50): it follows `ST` at all times. UNVERIFIED, unsafe for claims about the tone: the
spec's decision D24 (log entry 15). -/
def State.tone (s : State) : Bool := decide (s.st ≠ 0)

/-! ### The numbers of the control registers -/

/-- The 2-bit contents of `RUN` (R44). -/
def RunState.number : RunState → BitVec 2
  | .poweredOff => 0
  | .running => 1
  | .halted => 2


/-- The 3-bit contents of `FAULT.code` (R44, R241). -/
def FaultCode.number : FaultCode → BitVec 3
  | .none => 0
  | .outOfBounds => 1
  | .protectedRegion => 2
  | .stackOverflow => 3
  | .stackUnderflow => 4
  | .imageTooLarge => 5

/-! ### Taking a fatal fault -/

/-- `raise F(info)` (R15, R246): the event record becomes one `FaultReport`, the fault is recorded and the
machine halts; what the step did before stays. There is no return from a fault (R248). -/
def raise (c : FaultCode) (info : Nat) (s : State) : State :=
  { s with
    events := [.faultReport c (BitVec.ofNat 17 info)]
    fault := ⟨c, BitVec.ofNat 17 info⟩
    run := .halted }

/-- How a sequence of operations inside a step goes: it is done with a value, or a fault ended it and no later
operation runs (R15). -/
inductive Flow (α : Type) where
  | done (a : α) (s : State)
  | raised (s : State)
  deriving DecidableEq, Repr

/-- One operation after another; nothing runs after a raise (R15). -/
def Flow.bind {α β : Type} (f : Flow α) (k : α → State → Flow β) : Flow β :=
  match f with
  | .done a s => k a s
  | .raised s => .raised s

/-- The outcome of an instruction: a fatal fault too is a next state, the halted one R246 describes. -/
def Flow.result : Flow Unit → Result
  | .done _ s => .next s
  | .raised s => .next s

/-! ### The primitives -/

/-- `MemRead(addr, 1)` (R62). The address is an unbounded number, so it never wraps (R61). -/
def memRead (a : Nat) (s : State) : Flow Byte :=
  if Config.memSize ≤ a then .raised (raise .outOfBounds a s) else .done (Memory.read s.mem a) s

/-- `MemWrite(addr, 1, v)` (R63). -/
def memWrite (a : Nat) (b : Byte) (s : State) : Flow Unit :=
  if a < Config.reservedEnd then .raised (raise .protectedRegion a s)
  else if Config.memSize ≤ a then .raised (raise .outOfBounds a s)
  else .done () (s.setMem (Memory.set s.mem a b))

/-- `count` reads upward from an address, one at a time, stopping at the first fault (R70). -/
def readBytes : Nat → Nat → State → Flow (List Byte)
  | 0, _, s => .done [] s
  | n + 1, a, s =>
    (memRead a s).bind fun b s1 => (readBytes n (a + 1) s1).bind fun bs s2 => .done (b :: bs) s2

/-- Writes upward from an address, one at a time; the first fault stops them and the bytes already stored stay
stored (R70). -/
def writeBytes : List Byte → Nat → State → Flow Unit
  | [], _, s => .done () s
  | b :: bs, a, s => (memWrite a b s).bind fun _ s1 => writeBytes bs (a + 1) s1

/-- `count` loads into `V[k]`, `V[k+1]`, .. from addresses upward; the first fault stops them and the registers
already loaded stay loaded (R70, R195). -/
def loadRegs : Nat → Nat → Nat → State → Flow Unit
  | 0, _, _, s => .done () s
  | n + 1, k, a, s =>
    (memRead a s).bind fun b s1 => loadRegs n (k + 1) (a + 1) (s1.setReg (BitVec.ofNat 4 k) b)

/-- `AdvancePC()` (R27), the only way the program counter is incremented. -/
def advancePC (s : State) : Flow Unit :=
  if s.params.pcAdvanceLimit.value < s.pc.toNat + 2 then .raised (raise .outOfBounds (s.pc.toNat + 2) s)
  else .done () (s.setPc (BitVec.ofNat 16 (s.pc.toNat + 2)))

/-- `Push(a)` (R31). -/
def push (a : Word) (s : State) : Flow Unit :=
  if h : s.sp.val < 16 then
    .done () { s with stack := s.stack.set s.sp.val a h, sp := ⟨s.sp.val + 1, by omega⟩ }
  else .raised (raise .stackOverflow 0 s)

/-- `Pop()` (R32): the popped slot keeps its contents. -/
def pop (s : State) : Flow Word :=
  if h : 0 < s.sp.val then
    .done (s.stack[s.sp.val - 1]'(by omega)) { s with sp := ⟨s.sp.val - 1, by omega⟩ }
  else .raised (raise .stackUnderflow 0 s)

/-- `Skip()` (R148): the extra advance of a taken skip, with its bound check. -/
def skip (s : State) : Flow Unit := advancePC s

/-- A conditional skip (R144 to R147, R223, R224): `Skip()` when the condition holds, else nothing. -/
def skipIf (c : Bool) (s : State) : Flow Unit := if c then skip s else .done () s

/-! ### The environment -/

/-- The stimulus of the coming transition: the first in store, or the free one (R51, R52). -/
def State.stimulus (s : State) : Stimulus :=
  match s.schedule with
  | t :: _ => t
  | [] => Config.stimulus s.drawn

/-- The stimulus has been used: it leaves the store, or one more has been drawn. -/
def State.consume (s : State) : State :=
  match s.schedule with
  | _ :: rest => { s with schedule := rest }
  | [] => { s with drawn := s.drawn + 1 }

/-- Every transition starts with empty outputs (R17). -/
def State.begin (s : State) : State := { s with events := [], hostReport := none }

/-- The inputs presented for this transition (R18, R277). -/
def State.inputs (s : State) : Inputs := s.stimulus.inputs

end Sys2Proof.Machine
end

