-- ==== Sys2Proof/Machine/Operands.lean ====
section
/-! DEFINITION. The operand forms: assembled immediates (spec/30_encoding.md R94), digits and key codes
(R192, R226), the data address (R196), and the sampled inputs (spec/10_state.md R45 to R48). -/

namespace Sys2Proof.Machine

/-- `zext_16(nnn)` (R94). -/
def zextAddr (nnn : Addr12) : Word := nnn.setWidth 16

/-- `zext_16(V[x])` (R11). -/
def zextByte (b : Byte) : Word := b.setWidth 16

/-- `zext_8` of a key code (R225). -/
def zextKey (k : Nibble) : Byte := k.setWidth 8

/-- `V[x][3:0]`: the digit of `LD F, Vx` and the key code of `SKP` and `SKNP` (R192, R226). UNVERIFIED, unsafe:
the spec's decisions D18 and D19 (log entry 11). -/
def lowNibble (b : Byte) : Nibble := b.extractLsb' 0 4

/-- The address of glyph `d` (R40, R192). -/
def glyphAddress (d : Nibble) : Word := BitVec.ofNat 16 (Config.glyphBytes * d.toNat)

/-- The base of a data access, as an unbounded number (R61, R196). -/
def State.base (s : State) : Nat := s.i.toNat

/-- The three decimal digits of a byte, hundreds first (R193). -/
def bcdDigits (b : Byte) : List Byte :=
  [BitVec.ofNat 8 (b.toNat / 100), BitVec.ofNat 8 (b.toNat / 10 % 10), BitVec.ofNat 8 (b.toNat % 10)]

/-- The values of `V[0]` .. `V[x]`, in order (R194). -/
def State.regsUpTo (s : State) (x : Nibble) : List Byte :=
  (List.range (x.toNat + 1)).map fun k => s.reg (BitVec.ofNat 4 k)

/-- `keys[k] = 1` (R45). -/
def State.keyDown (s : State) (k : Nibble) : Bool := s.inputs.keys.getLsbD k.toNat

/-- Some key is down (R225). -/
def State.anyKeyDown (s : State) : Bool := decide (s.inputs.keys ≠ 0)

/-- The lowest key code that is down (R46, the default of a deterministic simulator). -/
def lowestKey (keys : BitVec 16) : Nibble :=
  BitVec.ofNat 4 (((List.range 16).find? fun k => keys.getLsbD k).getD 0)

/-- `key_pick` (R46): the key the collaborator offers where it is down, and otherwise the lowest one down, so
that `keys[key_pick] = 1` whenever some key is down. FREE VALUE within that constraint: every admissible key is
offered by some input (DESIGN CHOICE, safe, log entry 2). -/
def State.keyPick (s : State) : Nibble :=
  if s.keyDown s.inputs.keyPick then s.inputs.keyPick else lowestKey s.inputs.keys

/-- `rand_in` (R47). FREE VALUE. -/
def State.randIn (s : State) : Byte := s.inputs.randIn

/-- `disp_pixel(px, py)` (R48), in unwrapped coordinates. FREE VALUE. -/
def State.dispPixel (s : State) (px py : Nat) : Bool := s.inputs.display.contains (px, py)

end Sys2Proof.Machine
end

