-- ==== Sys2Proof/Machine/ControlFlow.lean ====
section
/-! DEFINITION. Control flow (spec/41_control_flow.md). On entry the program counter is already advanced (R124). -/

namespace Sys2Proof.Machine

/-- `RET` (R140). -/
def execRet (s : State) : Result := ((pop s).bind fun a t => .done () (t.setPc a)).result

/-- `JP nnn` (R141): the target is not checked. -/
def execJp (nnn : Addr12) (s : State) : Result := .next (s.setPc (zextAddr nnn))

/-- `CALL nnn` (R142): the pushed address is that of the following instruction. -/
def execCall (nnn : Addr12) (s : State) : Result :=
  ((push s.pc s).bind fun _ t => .done () (t.setPc (zextAddr nnn))).result

/-- `JP V0, nnn` (R143): the sum is at most 4350 and is not reduced. -/
def execJpV0 (nnn : Addr12) (s : State) : Result := .next (s.setPc (zextAddr nnn + zextByte (s.reg 0)))

/-- `SE Vx, kk` (R144). -/
def execSeImm (x : Nibble) (kk : Byte) (s : State) : Result := (skipIf (s.reg x == kk) s).result

/-- `SNE Vx, kk` (R145). -/
def execSneImm (x : Nibble) (kk : Byte) (s : State) : Result := (skipIf (s.reg x != kk) s).result

/-- `SE Vx, Vy` (R146). -/
def execSeReg (x y : Nibble) (s : State) : Result := (skipIf (s.reg x == s.reg y) s).result

/-- `SNE Vx, Vy` (R147). -/
def execSneReg (x y : Nibble) (s : State) : Result := (skipIf (s.reg x != s.reg y) s).result

end Sys2Proof.Machine
end

