-- ==== Sys2Proof/Machine/Flags.lean ====
section
/-! DEFINITION. The ALU and every flag computation: carry, not-borrow, the bit shifted out
(spec/42_register_ops.md R166 to R172) and collision (spec/45_display_keys.md R221). -/

namespace Sys2Proof.Machine

/-- A flag is the byte 0 or 1 (R35). -/
def flagByte (c : Bool) : Byte := if c then 1 else 0

/-- The sum modulo 256, and whether the unsigned sum exceeds 255 (R168). -/
def addWithCarry (a b : Byte) : Byte × Bool :=
  (BitVec.ofNat 8 (a.toNat + b.toNat), decide (255 < a.toNat + b.toNat))

/-- `a - b` modulo 256, and whether no borrow occurs (R169). -/
def subWithBorrow (a b : Byte) : Byte × Bool := (a - b, decide (b.toNat ≤ a.toNat))

/-- The value shifted right by one, zero entering at bit 7, and the bit shifted out (R170). -/
def shiftRightOne (a : Byte) : Byte × Bool := (a >>> 1, a.getLsbD 0)

/-- The value shifted left by one, zero entering at bit 0, and the bit shifted out (R172). -/
def shiftLeftOne (a : Byte) : Byte × Bool := (a <<< 1, a.getLsbD 7)

/-- The operand a shift reads, of `V[x]` and `V[y]` (`SHIFT_SOURCE`, R170). -/
def shiftOperand (source : ShiftSource) (a b : Byte) : Byte :=
  match source with
  | .vx => a
  | .vy => b

/-- Write a result to `V[x]` and a flag to `V[15]`, in the order `VF_WRITE_ORDER` gives (R167). -/
def State.writeFlagged (s : State) (x : Nibble) (result flag : Byte) : State :=
  match s.params.vfWriteOrder with
  | .flagThenResult => (s.setReg 15 flag).setReg x result
  | .resultThenFlag => (s.setReg x result).setReg 15 flag

/-- `FlagOp(x, y, f)` (R167): both operands are read before anything is written. -/
def flagOp (f : Byte → Byte → Byte × Bool) (x y : Nibble) (s : State) : State :=
  let r := f (s.reg x) (s.reg y)
  s.writeFlagged x r.1 (flagByte r.2)

/-- Does a row drawn at `(ox, oy)` unset a pixel? Bit 7 is the leftmost pixel (R221). -/
def rowCollides (s : State) (ox oy : Nat) (row : Byte) : Bool :=
  (List.range 8).any fun c => row.getLsbD (7 - c) && s.dispPixel (ox + c) oy

/-- `Collision(ox, oy, rows)` (R221): row `r` lies at `oy + r`. -/
def collision (s : State) (ox : Nat) : Nat → List Byte → Bool
  | _, [] => false
  | oy, row :: rows => rowCollides s ox oy row || collision s ox (oy + 1) rows

end Sys2Proof.Machine
end

