-- ==== Sys2Proof/Machine/DisplayKeys.lean ====
section
/-! DEFINITION. Display and key instructions (spec/45_display_keys.md). -/

namespace Sys2Proof.Machine

/-- `CLS` (R220): no state of the core changes. -/
def execCls (s : State) : Result := .next (s.emit .clearRequest)

/-- `DRW Vx, Vy, n` (R222): the coordinates are read before `VF` is written, and a fault in a row leaves `VF` and
the draw request out. -/
def execDrw (x y n : Nibble) (s : State) : Result :=
  ((readBytes n.toNat s.base s).bind fun rows t =>
    .done () ((t.setReg 15 (flagByte (collision s (s.reg x).toNat (s.reg y).toNat rows))).emit
      (.drawRequest (s.reg x) (s.reg y) rows))).result

/-- `SKP Vx` (R223, R226). -/
def execSkp (x : Nibble) (s : State) : Result := (skipIf (s.keyDown (lowNibble (s.reg x))) s).result

/-- `SKNP Vx` (R224, R226). -/
def execSknp (x : Nibble) (s : State) : Result := (skipIf (!s.keyDown (lowNibble (s.reg x))) s).result

/-- `LD Vx, K` (R225): with no key down the program counter goes back to the instruction itself. -/
def execLdVxK (x : Nibble) (s : State) : Result :=
  if s.anyKeyDown then .next (s.setReg x (zextKey s.keyPick))
  else .next ((s.setPc (s.pc - 2)).emit (.keyWaitRequest x))

end Sys2Proof.Machine
end

