-- ==== Sys2Proof/Machine/MemoryOps.lean ====
section
/-! DEFINITION. Index-register and memory instructions (spec/43_memory_ops.md). -/

namespace Sys2Proof.Machine

/-- `LD I, nnn` (R190). -/
def execLdI (nnn : Addr12) (s : State) : Result := .next (s.setI (zextAddr nnn))

/-- `ADD I, Vx` (R191): modulo 65536, no flag. -/
def execAddI (x : Nibble) (s : State) : Result := .next (s.setI (s.i + zextByte (s.reg x)))

/-- `LD F, Vx` (R192): an address only, no access. -/
def execLdF (x : Nibble) (s : State) : Result := .next (s.setI (glyphAddress (lowNibble (s.reg x))))

/-- `LD B, Vx` (R193): `I` and `V[x]` are unchanged. -/
def execLdB (x : Nibble) (s : State) : Result := (writeBytes (bcdDigits (s.reg x)) s.base s).result

/-- `LD [I], Vx` (R194): `I` is unchanged. -/
def execLdMemVx (x : Nibble) (s : State) : Result := (writeBytes (s.regsUpTo x) s.base s).result

/-- `LD Vx, [I]` (R195): `I` is unchanged. -/
def execLdVxMem (x : Nibble) (s : State) : Result := (loadRegs (x.toNat + 1) 0 s.base s).result

end Sys2Proof.Machine
end

