-- ==== Sys2Proof/Machine/RegisterOps.lean ====
section
/-! DEFINITION. Register and ALU instructions (spec/42_register_ops.md). None changes the program counter further,
touches memory, emits an event or raises a fault. -/

namespace Sys2Proof.Machine

/-- `LD Vx, kk` (R160). -/
def execLdImm (x : Nibble) (kk : Byte) (s : State) : Result := .next (s.setReg x kk)

/-- `ADD Vx, kk` (R161): modulo 256, no flag. -/
def execAddImm (x : Nibble) (kk : Byte) (s : State) : Result := .next (s.setReg x (s.reg x + kk))

/-- `LD Vx, Vy` (R162). -/
def execLdReg (x y : Nibble) (s : State) : Result := .next (s.setReg x (s.reg y))

/-- `OR Vx, Vy` (R163). -/
def execOrReg (x y : Nibble) (s : State) : Result := .next (s.setReg x (s.reg x ||| s.reg y))

/-- `AND Vx, Vy` (R164). -/
def execAndReg (x y : Nibble) (s : State) : Result := .next (s.setReg x (s.reg x &&& s.reg y))

/-- `XOR Vx, Vy` (R165). -/
def execXorReg (x y : Nibble) (s : State) : Result := .next (s.setReg x (s.reg x ^^^ s.reg y))

/-- `ADD Vx, Vy` (R168). -/
def execAddReg (x y : Nibble) (s : State) : Result := .next (flagOp addWithCarry x y s)

/-- `SUB Vx, Vy` (R169): `V[x] - V[y]`. -/
def execSub (x y : Nibble) (s : State) : Result := .next (flagOp subWithBorrow x y s)

/-- `SHR Vx {, Vy}` (R170). -/
def execShr (x y : Nibble) (s : State) : Result :=
  .next (flagOp (fun a b => shiftRightOne (shiftOperand s.params.shiftSource a b)) x y s)

/-- `SUBN Vx, Vy` (R171): `V[y] - V[x]`. -/
def execSubn (x y : Nibble) (s : State) : Result := .next (flagOp (fun a b => subWithBorrow b a) x y s)

/-- `SHL Vx {, Vy}` (R172). -/
def execShl (x y : Nibble) (s : State) : Result :=
  .next (flagOp (fun a b => shiftLeftOne (shiftOperand s.params.shiftSource a b)) x y s)

end Sys2Proof.Machine
end

