-- ==== Sys2Proof/Machine/TimerRandom.lean ====
section
/-! DEFINITION. Timer and random instructions (spec/44_timer_random.md). -/

namespace Sys2Proof.Machine

/-- `LD Vx, DT` (R210). -/
def execLdVxDt (x : Nibble) (s : State) : Result := .next (s.setReg x s.dt)

/-- `LD DT, Vx` (R211). -/
def execLdDtVx (x : Nibble) (s : State) : Result :=
  .next ((s.setDt (s.reg x)).emit (.timerChange .dt (s.reg x)))

/-- `LD ST, Vx` (R212). -/
def execLdStVx (x : Nibble) (s : State) : Result :=
  .next ((s.setSt (s.reg x)).emit (.timerChange .st (s.reg x)))

/-- `RND Vx, kk` (R213). -/
def execRnd (x : Nibble) (kk : Byte) (s : State) : Result := .next (s.setReg x (s.randIn &&& kk))

end Sys2Proof.Machine
end

