-- ==== Sys2Proof/Machine/UnknownOp.lean ====
section
/-! DEFINITION. The operation of an unassigned word (spec/40_step_cycle.md R125). -/

namespace Sys2Proof.Machine

/-- `Unknown(word)` (R125): reported, not a fault, and nothing else changes. -/
def execUnknown (word : Word) (s : State) : Result := .next (s.emit (.diagnostic word))

end Sys2Proof.Machine
end

