-- ==== Sys2Proof/Machine/Engine.lean ====
section
/-! DEFINITION. The four transitions of the block (spec/10_state.md R51): the step cycle (spec/40_step_cycle.md), the
tick (spec/60_exceptions.md R256), and the host's Reset and LoadImage (spec/70_reset_and_hazards.md R270, R274). -/

namespace Sys2Proof.Machine

/-- Change the next state of an outcome. -/
def mapNext (f : State → State) : Result → Result
  | .next s => .next (f s)
  | .fault r => .fault r
  | .refused r => .refused r

/-- Fetch (R121): the two bytes at the program counter, the first one the high byte. -/
def fetch (s : State) : Flow Word :=
  (memRead s.pc.toNat s).bind fun hi s1 =>
    (memRead (s.pc.toNat + 1) s1).bind fun lo s2 => .done (wordOfBytes hi lo) s2

/-- Fetch, then advance, before decode (R120, R122). -/
def fetchAdvance (s : State) : Flow Word :=
  (fetch s).bind fun word s1 => (advancePC s1).bind fun _ s2 => .done word s2

/-- `Step()` (R120): fetch, advance, decode, execute; no effect unless `Running` (R128). -/
def coreStep (s : State) : Result :=
  if s.run = .running then
    match fetchAdvance s with
    | .done word t => exec (decodeWord word) t
    | .raised t => .next t
  else .next s

/-- A timer counts down and stays at 0 (R256). -/
def countDown (b : Byte) : Byte := if b = 0 then 0 else b - 1

/-- `Tick()` (R256): both timers, in `Running` only; nothing else changes. -/
def tick (s : State) : State :=
  if s.run = .running then (s.setDt (countDown s.dt)).setSt (countDown s.st) else s

/-- `Reset()` (R270), in any run state. The environment is not part of the block and keeps what it has in store
(R271), and the block keeps its parameters. -/
def hostReset (s : State) : State := { State.resetWith s.params with schedule := s.schedule, drawn := s.drawn }

/-- `LoadImage(bytes)` (R274, R275): accepted in `PoweredOff` only; an image that is too long is rejected whole and
reported to the host. -/
def loadImage (bytes : List Byte) (s : State) : State :=
  if s.run = .poweredOff then
    if Config.imageMax < bytes.length then { s with hostReport := some ⟨.imageTooLarge, bytes.length⟩ }
    else { s with mem := Memory.setBytes s.mem Config.reservedEnd bytes, run := .running }
  else s

/-- What one trigger does to a state whose outputs are empty (R51). -/
def respond (t : Trigger) (s : State) : Result :=
  match t with
  | .reset => .next (hostReset s)
  | .loadImage bytes => .next (loadImage bytes s)
  | .step => coreStep s
  | .tick => .next (tick s)

/-- One atomic transition (R52): the outputs are emptied, the trigger of the coming stimulus is answered, and the
stimulus is used up. -/
def transition (s : State) : Result := mapNext State.consume (respond s.stimulus.trigger s.begin)

/-- A `step` trigger with no key down, a zero random byte and no pixel set. -/
def quietStep : Stimulus := ⟨.step, ⟨0, 0, 0, []⟩⟩

/-- Where a placed instruction goes: at the program counter where fetch and advance can succeed there, else at 512. -/
def fetchAddress (s : State) : Nat :=
  if s.pc.toNat + 2 ≤ s.params.pcAdvanceLimit.value then s.pc.toNat else Config.reservedEnd

/-- A state whose very next transition fetches and runs the word: the word stands at the program counter, the machine
is `Running`, and the coming stimulus is a `step` (log entry 16). -/
def placeWord (word : Word) (s : State) : State :=
  { s with
    pc := BitVec.ofNat 16 (fetchAddress s)
    mem := Memory.setBytes s.mem (fetchAddress s) (bytesOfWord word)
    run := .running
    schedule := quietStep :: s.schedule }

end Sys2Proof.Machine
end

