-- ==== Sys2Proof/Machine/Step.lean ====
section
/-! DEFINITION. The step function of the model: one transition of the block, whichever trigger comes next
(spec/10_state.md R51, R52), and the placing of one instruction where the next fetch finds it. -/

namespace Sys2Proof.Machine

/-- One transition of the block. -/
def step (s : State) : Host.Outcome State Fault Refusal := transition s

/-- The state with an instruction of the opcode table's numbering stored where the next step fetches it. -/
def State.withFetchWord (s : State) (nbits w : Nat) : State := placeWord (tableWord nbits w) s

end Sys2Proof.Machine
end

