-- ==== Sys2Proof/Safety.lean ====
section
/-! DEFINITION. What claims are stated in: the invariant of the machine, the frames of the instructions, and the end
of a run. -/

namespace Sys2Proof.Machine

/-! ### The invariant -/

/-- Memory is in its canonical form (the model's own, log entry 7). -/
def State.MemCanonical (s : State) : Prop := s.mem.wf = true

/-- The reserved region holds its reset contents: it never changes (spec/10_state.md R40). -/
def State.ReservedIntact (s : State) : Prop :=
  ∀ a, a < 512 → Memory.read s.mem a = s.params.resetByte a

/-- The program counter is at most 0x10FE = 4350 (spec/10_state.md R29). -/
def State.PcBounded (s : State) : Prop := s.pc.toNat ≤ 4350

/-- Every return address held is at most 4096 (spec/10_state.md R29). -/
def State.ReturnsBounded (s : State) : Prop :=
  ∀ k, (h : k < 16) → k < s.sp.val → (s.stack[k]'h).toNat ≤ 4096

/-- `FAULT` records one of the four fatal faults exactly when the machine is halted, and is empty otherwise
(spec/10_state.md R42, R43). -/
def State.FaultMatchesRun (s : State) : Prop :=
  if s.run = .halted then
    s.fault.code = .outOfBounds ∨ s.fault.code = .protectedRegion ∨
      s.fault.code = .stackOverflow ∨ s.fault.code = .stackUnderflow
  else s.fault = ⟨.none, 0⟩

/-- Before an image is accepted the block is as reset left it (spec/10_state.md R42, R51). What it says of the stack
slots, which the spec leaves unspecified, is the model's choice (log entry 5). -/
def State.PristineWhenOff (s : State) : Prop :=
  s.run = .poweredOff → s = { State.resetWith s.params with
    schedule := s.schedule, drawn := s.drawn, events := s.events, hostReport := s.hostReport }

/-- The invariant of the machine: every transition keeps it, from every state. -/
structure State.Inv (s : State) : Prop where
  memCanonical : s.MemCanonical
  reservedIntact : s.ReservedIntact
  pcBounded : s.PcBounded
  returnsBounded : s.ReturnsBounded
  faultMatchesRun : s.FaultMatchesRun
  pristineWhenOff : s.PristineWhenOff

/-! ### Frames -/

/-- Only general registers may differ. -/
def OnlyRegs (s t : State) : Prop := t = { s with v := t.v }

/-- Only the index register may differ. -/
def OnlyIndex (s t : State) : Prop := t = { s with i := t.i }

/-- Only the program counter may differ. -/
def OnlyPc (s t : State) : Prop := t = { s with pc := t.pc }

/-- Only the program counter and the call stack may differ. -/
def OnlyPcStack (s t : State) : Prop := t = { s with pc := t.pc, sp := t.sp, stack := t.stack }

/-- Only memory may differ. -/
def OnlyMem (s t : State) : Prop := t = { s with mem := t.mem }

/-- Only the event record may differ. -/
def OnlyEvents (s t : State) : Prop := t = { s with events := t.events }

/-- The two states agree on the whole state of the block (spec/10_state.md R20); the environment and the outputs may
differ. -/
def SameBlock (s t : State) : Prop :=
  t = { s with schedule := t.schedule, drawn := t.drawn, events := t.events, hostReport := t.hostReport }

/-! ### Shapes of effect -/

/-- One register is written and nothing else changes. -/
def WritesReg (i : Instr) (s : State) (x : Nibble) (b : Byte) : Prop :=
  ∃ t, exec i s = .next t ∧ t.reg x = b ∧ (∀ y, y ≠ x → t.reg y = s.reg y) ∧ OnlyRegs s t

/-- A result and a flag are written (spec/42_register_ops.md R167): the flag to register 15, the result to `V[x]`;
where `x` is 15 the one `VF_WRITE_ORDER` writes last survives; nothing else changes. -/
def WritesFlagged (i : Instr) (s : State) (x : Nibble) (b : Byte) (c : Prop) : Prop :=
  ∃ t, exec i s = .next t ∧ (x ≠ 15 ∨ s.params.vfWriteOrder = .flagThenResult → t.reg x = b) ∧
    (x ≠ 15 ∨ s.params.vfWriteOrder = .resultThenFlag → (c → t.vf = 1) ∧ (¬ c → t.vf = 0)) ∧
    (∀ y, y ≠ x → y ≠ 15 → t.reg y = s.reg y) ∧ OnlyRegs s t

/-- The fault is taken and leaves everything but `RUN`, `FAULT` and the event record as `t` has it
(spec/60_exceptions.md R246). -/
def Raises (i : Instr) (s : State) (c : FaultCode) (info : Nat) (t : State) : Prop :=
  exec i s = .next { t with
    run := .halted, fault := ⟨c, BitVec.ofNat 17 info⟩, events := [.faultReport c (BitVec.ofNat 17 info)] }

/-- A conditional skip (spec/41_control_flow.md R148): nothing when the condition fails; two more bytes when it holds
and the sum is within `PC_ADVANCE_LIMIT`; else the fault of the advance. -/
def Skips (i : Instr) (c : Prop) (s : State) : Prop :=
  (¬ c → exec i s = .next s) ∧
  (c → s.pc.toNat + 2 ≤ s.params.pcAdvanceLimit.value →
    ∃ t, exec i s = .next t ∧ t.pc.toNat = s.pc.toNat + 2 ∧ OnlyPc s t) ∧
  (c → s.params.pcAdvanceLimit.value < s.pc.toNat + 2 → Raises i s .outOfBounds (s.pc.toNat + 2) s)

/-! ### Kinds of instruction -/

/-- The instructions that store to memory (spec/10_state.md R38). -/
def storesMemory : Instr → Bool
  | .ldB _ => true
  | .ldMemVx _ => true
  | _ => false

/-- The instructions that move the stack pointer (spec/10_state.md R33). -/
def usesStack : Instr → Bool
  | .call _ => true
  | .ret => true
  | _ => false

/-- The instructions that write the index register (spec/10_state.md R34). -/
def writesIndex : Instr → Bool
  | .ldI _ => true
  | .addI _ => true
  | .ldF _ => true
  | _ => false

/-- The instructions that read an input of the environment (spec/10_state.md R45 to R48). -/
def readsInput : Instr → Bool
  | .rnd _ _ => true
  | .drw _ _ _ => true
  | .skp _ => true
  | .sknp _ => true
  | .ldVxK _ => true
  | _ => false

/-- The instructions that write `VF` as a flag (spec/10_state.md R35). -/
def setsFlag : Instr → Bool
  | .addReg _ _ => true
  | .sub _ _ => true
  | .shr _ _ => true
  | .subn _ _ => true
  | .shl _ _ => true
  | .drw _ _ _ => true
  | _ => false

/-- May the instruction write register `k` as its destination (spec/10_state.md R23)? -/
def writesDest (i : Instr) (k : Nibble) : Bool :=
  match i with
  | .ldImm x _ => k == x
  | .addImm x _ => k == x
  | .ldReg x _ => k == x
  | .orReg x _ => k == x
  | .andReg x _ => k == x
  | .xorReg x _ => k == x
  | .addReg x _ => k == x
  | .sub x _ => k == x
  | .shr x _ => k == x
  | .subn x _ => k == x
  | .shl x _ => k == x
  | .rnd x _ => k == x
  | .ldVxDt x => k == x
  | .ldVxK x => k == x
  | .ldVxMem x => decide (k.toNat ≤ x.toNat)
  | _ => false

/-! ### The step as the host sees it -/

/-- The word at the program counter. -/
def State.wordAtPc (s : State) : Word :=
  wordOfBytes (Memory.read s.mem s.pc.toNat) (Memory.read s.mem (s.pc.toNat + 1))

/-- The coming transition is a `step` of a running machine whose fetch and advance go through (R121, R122): both do
exactly when `pc + 2` is within `PC_ADVANCE_LIMIT`, which is never above the memory's size. -/
def State.Executes (s : State) : Prop :=
  s.run = .running ∧ s.stimulus.trigger = .step ∧ s.pc.toNat + 2 ≤ s.params.pcAdvanceLimit.value

/-- The state an instruction of the coming step executes in: outputs empty, the program counter advanced (R124). -/
def State.advanced (s : State) : State := s.begin.setPc (BitVec.ofNat 16 (s.pc.toNat + 2))

/-- The end of a run (spec/40_step_cycle.md R130): running, and the word at the program counter, which
can be fetched and advanced past, jumps to itself. -/
def State.EndOfRun (s : State) : Prop :=
  s.run = .running ∧ s.pc.toNat + 2 ≤ s.params.pcAdvanceLimit.value ∧
    ∃ nnn : Addr12, decodeWord s.wordAtPc = .jp nnn ∧ nnn.toNat = s.pc.toNat

end Sys2Proof.Machine
end

