-- ==== Sys2Proof/Certificates/Slice0/Obligations.lean ====
section
/-! DEFINITION. The statements for the provers. Each docstring names the rules of spec/ it formalises. Where a rule
rests on a decision of the spec (spec/92_eei_decisions.md D<n>) or on a choice of the model, the docstring says so. -/

open Sys2Proof Sys2Proof.Machine

/-! ### Encoding and decoding -/

/-- Words written out from the opcode map (R96, R102) decode to the instruction they stand for. The numeric
assignments are the spec's decision D3. -/
def Obligations.SampleWordsDecode : Prop :=
  decodeWord 0x6005 = .ldImm 0 0x05 ∧ decodeWord 0x7003 = .addImm 0 0x03 ∧ decodeWord 0x1200 = .jp 0x200 ∧
  decodeWord 0x2300 = .call 0x300 ∧ decodeWord 0x00EE = .ret ∧ decodeWord 0x83A4 = .addReg 3 10 ∧
  decodeWord 0xD125 = .drw 1 2 5 ∧ decodeWord 0xFF55 = .ldMemVx 15 ∧ decodeWord 0xE7A1 = .sknp 7

/-- Encoding is the inverse of decoding (R102): no bit of a well-formed instruction is dropped. -/
def Obligations.DecodeOfEncode : Prop :=
  ∀ i : Instr, i.wellFormed = true → decodeWord (encode i) = i

/-- Decoding loses no bit (R97), and every word decodes to a well-formed instruction (R95, R98). -/
def Obligations.EncodeOfDecode : Prop :=
  ∀ w : Word, encode (decodeWord w) = w ∧ (decodeWord w).wellFormed = true

/-- A word decodes to `Unknown` exactly when no defined row of the opcode map selects it (R98). -/
def Obligations.UnknownIffUnassigned : Prop :=
  ∀ w : Word, decodeWord w = .unknown w ↔ assigned w = false

/-- The defined rows of the opcode map are pairwise disjoint (30_encoding.md, opening section). -/
def Obligations.RowsDisjoint : Prop :=
  ∀ (w : Word) (r q : Row), r ∈ definedRows → q ∈ definedRows → r.selects w = true → q.selects w = true → r = q

/-- The bytes of a well-formed instruction, high byte first, decode to it and leave the bytes after it (R66, R90). -/
def Obligations.BytesDecode : Prop :=
  ∀ (i : Instr) (rest : List Byte), i.wellFormed = true →
    decode (bytesOfWord (encode i) ++ rest) = .ok (i, rest)

/-! ### Memory -/

/-- R62, whole: a read returns the byte where the address is below 4096 and raises `OutOfBounds(addr)` where it is not;
a read changes nothing. -/
def Obligations.MemReadRule : Prop :=
  ∀ (s : State) (a : Nat),
    (a < 4096 → memRead a s = .done (Memory.read s.mem a) s) ∧
    (4096 ≤ a → memRead a s = .raised { s with
      run := .halted, fault := ⟨.outOfBounds, BitVec.ofNat 17 a⟩
      events := [.faultReport .outOfBounds (BitVec.ofNat 17 a)] })

/-- R63: a write below 512 raises `ProtectedRegionFault`, one at 4096 or more raises `OutOfBounds` (the spec's decision
D14), and either way memory is as it was; one between stores exactly its byte. -/
def Obligations.MemWriteRule : Prop :=
  ∀ (s : State) (a : Nat) (b : Byte), s.MemCanonical →
    (a < 512 → memWrite a b s = .raised { s with
      run := .halted, fault := ⟨.protectedRegion, BitVec.ofNat 17 a⟩
      events := [.faultReport .protectedRegion (BitVec.ofNat 17 a)] }) ∧
    (4096 ≤ a → memWrite a b s = .raised { s with
      run := .halted, fault := ⟨.outOfBounds, BitVec.ofNat 17 a⟩
      events := [.faultReport .outOfBounds (BitVec.ofNat 17 a)] }) ∧
    (512 ≤ a → a < 4096 → ∃ t, memWrite a b s = .done () t ∧ OnlyMem s t ∧ t.MemCanonical ∧
      ∀ x, Memory.read t.mem x = if x = a then b else Memory.read s.mem x)

/-- R65, the read-after-write law of the writable region, as the two primitives see it. -/
def Obligations.ReadAfterWrite : Prop :=
  ∀ (s : State) (a : Nat) (b : Byte), s.MemCanonical → 512 ≤ a → a < 4096 →
    ∃ t, memWrite a b s = .done () t ∧ memRead a t = .done b t ∧
      ∀ x, x < 4096 → x ≠ a → memRead x t = .done (Memory.read s.mem x) t

/-- Canonical memories that read alike at every address are equal data. The canonical form is the model's own (log
entry 7); the addresses are those of R38. -/
def Obligations.MemoryExtensional : Prop :=
  ∀ m n : Memory, Memory.wf m = true → Memory.wf n = true →
    (∀ a, a < 4096 → Memory.read m a = Memory.read n a) → m = n

/-- R78: a byte stored where the program counter points is the byte the next fetch reads, with nothing between. -/
def Obligations.StoredByteIsFetched : Prop :=
  ∀ (s t : State) (b : Byte) (a : Nat), s.MemCanonical → memWrite a b s = .done () t → s.pc.toNat + 1 < 4096 →
    (a = s.pc.toNat → fetch t = .done (wordOfBytes b (Memory.read s.mem (s.pc.toNat + 1))) t) ∧
    (a = s.pc.toNat + 1 → fetch t = .done (wordOfBytes (Memory.read s.mem s.pc.toNat) b) t)

/-- Only `LD B` and `LD [I]` store to memory (R38, R126): after every other instruction every byte of memory reads as
before. -/
def Obligations.NonStoringKeepsMemory : Prop :=
  ∀ (i : Instr) (s t : State), storesMemory i = false → exec i s = .next t →
    ∀ a, Memory.read t.mem a = Memory.read s.mem a

/-- No instruction changes a byte below 512 (R39, R40, R74). -/
def Obligations.ReservedRegionKept : Prop :=
  ∀ (i : Instr) (s t : State), s.MemCanonical → exec i s = .next t →
    ∀ a, a < 512 → Memory.read t.mem a = Memory.read s.mem a

/-- Every transition of the block, whichever trigger comes, keeps memory in its canonical form (log entry 7). -/
def Obligations.StepKeepsMemCanonical : Prop :=
  ∀ s t : State, s.MemCanonical → step s = .next t → t.MemCanonical

/-! ### The step, the tick and the host's moves -/

/-- R120, R122, R124: when the bytes at the program counter decode to an instruction and `pc + 2` is within
`PC_ADVANCE_LIMIT` (the spec's decision D10, log entries 8 and 27; `FetchFaults` states the rest), a step of the running
machine is that instruction executed with the outputs emptied and the program counter advanced by 2, after which the
stimulus is used up (the last is the model's own, log entry 1). -/
def Obligations.StepRunsDecoded : Prop :=
  ∀ (s : State) (i : Instr), s.Executes → decodeWord s.wordAtPc = i →
    step s = mapNext State.consume (exec i s.advanced)

/-- R121, R122: where `pc + 2` is above `PC_ADVANCE_LIMIT` the step raises `OutOfBounds` before it decodes, with nothing
else changed: of the first byte that does not exist where the fetch faults, of `pc + 2` = 4096 where the advance does,
at 4094 under the limit 4095 (the limit is the spec's decision D10, log entries 8 and 27; the order of the two reads its
D37). -/
def Obligations.FetchFaults : Prop :=
  ∀ s : State, s.run = .running → s.stimulus.trigger = .step →
    s.params.pcAdvanceLimit.value < s.pc.toNat + 2 →
    ∃ t, step s = .next t ∧ t.run = .halted ∧
      t.fault = ⟨.outOfBounds, BitVec.ofNat 17 (if s.pc.toNat < 4096 then 4096 else s.pc.toNat)⟩ ∧
      t.events = [.faultReport t.fault.code t.fault.info] ∧
      SameBlock { s with run := t.run, fault := t.fault } t

/-- R128: a `step` outside `Running` changes nothing and emits nothing (the spec's decision D26). -/
def Obligations.StepOutsideRunning : Prop :=
  ∀ s : State, s.run ≠ .running → s.stimulus.trigger = .step →
    ∃ t, step s = .next t ∧ SameBlock s t ∧ t.events = []

/-- R256: a tick of the running machine takes one from each timer that is not 0, changes nothing else and emits nothing;
outside `Running` it changes nothing (the latter the spec's decision D25). -/
def Obligations.TickRule : Prop :=
  ∀ s : State, s.stimulus.trigger = .tick →
    ∃ t, step s = .next t ∧ t.events = [] ∧
      (s.run = .running → t.dt.toNat = s.dt.toNat - 1 ∧ t.st.toNat = s.st.toNat - 1 ∧
        SameBlock { s with dt := t.dt, st := t.st } t) ∧
      (s.run ≠ .running → SameBlock s t)

/-- R129: a step does not decrement the timers: after it each holds what it held, or what `LD DT, Vx` or `LD ST, Vx`
put there. -/
def Obligations.StepKeepsTimers : Prop :=
  ∀ s t : State, s.stimulus.trigger = .step → step s = .next t →
    (t.dt = s.dt ∨ ∃ x, s.Executes ∧ decodeWord s.wordAtPc = .ldDtVx x ∧ t.dt = s.reg x) ∧
    (t.st = s.st ∨ ∃ x, s.Executes ∧ decodeWord s.wordAtPc = .ldStVx x ∧ t.st = s.reg x)

/-- R270, R54: what `Reset` leaves, from any run state, in a block of any parameters. All values but those of the program
counter, the glyph addresses' being glyphs and the zero of the writable region are the spec's decisions D7, D8, D26 and
D28. -/
def Obligations.ResetLeaves : Prop :=
  ∀ s : State, s.stimulus.trigger = .reset →
    ∃ t, step s = .next t ∧ t.pc = 512 ∧ (∀ x, t.reg x = 0) ∧ t.i = 0 ∧ t.sp = 0 ∧ t.dt = 0 ∧ t.st = 0 ∧
      t.tone = false ∧ t.run = .poweredOff ∧ t.fault = ⟨.none, 0⟩ ∧ t.events = [] ∧ t.params = s.params ∧
      ∀ a, a < 4096 → Memory.read t.mem a =
        if h : a < 80 then s.params.glyphRom[a] else if a < 512 then s.params.reservedFill else 0

/-- R274, R275: an image of at most 3584 bytes offered to a block that is `PoweredOff` stands from 512 on and the
machine runs; a longer one is rejected whole with code 5 and its length; in another run state nothing happens. What
starts a run is the spec's decision D28. -/
def Obligations.LoadImageRule : Prop :=
  ∀ (s : State) (bytes : List Byte), s.MemCanonical → s.stimulus.trigger = .loadImage bytes →
    ∃ t, step s = .next t ∧ t.events = [] ∧
      (s.run = .poweredOff → bytes.length ≤ 3584 →
        t.run = .running ∧ t.hostReport = none ∧ SameBlock { s with run := t.run, mem := t.mem } t ∧
        ∀ a, Memory.read t.mem a =
          if h : 512 ≤ a ∧ a < 512 + bytes.length then bytes[a - 512]'(by omega) else Memory.read s.mem a) ∧
      (s.run = .poweredOff → 3584 < bytes.length →
        SameBlock s t ∧ t.hostReport = some ⟨.imageTooLarge, bytes.length⟩) ∧
      (s.run ≠ .poweredOff → SameBlock s t ∧ t.hostReport = none)

/-- R248: nothing but `Reset` moves a halted machine. -/
def Obligations.HaltedUntilReset : Prop :=
  ∀ s : State, s.run = .halted → s.stimulus.trigger ≠ .reset →
    ∃ t, step s = .next t ∧ SameBlock s t ∧ t.events = []

/-- R127, R246: the step never blocks: every transition answers a next state, never a fault outcome or a refusal. -/
def Obligations.EveryTransitionAnswers : Prop :=
  ∀ s : State, ∃ t, step s = .next t

/-- R49: a transition emits at most one event. -/
def Obligations.AtMostOneEvent : Prop :=
  ∀ s t : State, step s = .next t → t.events.length ≤ 1

/-- R246, R240: an instruction leaves `RUN` and `FAULT` alone, or it takes one of the four fatal faults: the machine
halts, the fault is recorded and its report is the whole event record. -/
def Obligations.FaultsAreTaken : Prop :=
  ∀ (i : Instr) (s t : State), exec i s = .next t →
    (t.run = s.run ∧ t.fault = s.fault) ∨
    (t.run = .halted ∧ t.events = [.faultReport t.fault.code t.fault.info] ∧
      (t.fault.code = .outOfBounds ∨ t.fault.code = .protectedRegion ∨
        t.fault.code = .stackOverflow ∨ t.fault.code = .stackUnderflow))

/-- R130: at the end of a run every step leaves the whole block as it was and emits nothing. -/
def Obligations.EndOfRunStays : Prop :=
  ∀ s : State, s.EndOfRun → s.stimulus.trigger = .step →
    ∃ t, step s = .next t ∧ SameBlock s t ∧ t.events = []

/-! ### The invariant -/

/-- The invariant holds in the state after reset, `State.reset` and that of a block of any parameters (R54; decisions D7, D8, D26 and D28; canonical memory is the model's own, log entry 7; the parameters
stand in the state by log entry 27; the stack slots are zero by log entry 5, and the model's own fields as log entry 3
says). -/
def Obligations.ResetInv : Prop :=
  State.reset.Inv ∧ ∀ p : Params, (State.resetWith p).Inv

/-- Every transition keeps the invariant, from every state that meets it: memory canonical (the model's own form, log
entry 7) and the reserved region intact (R40), the program counter at most 4350 and the return addresses at most 4096
(R29), `FAULT` recorded exactly when halted (R42, R43), the block as reset left it while it is off (R42, R51). The last
clause takes in the stack slots, which R54 leaves unspecified: that they are zero while the block is off rests on the
model's choice in log entry 5 (DESIGN CHOICE), on no rule of the spec. -/
def Obligations.StepKeepsInv : Prop :=
  ∀ s t : State, s.Inv → step s = .next t → t.Inv

/-! ### Control flow -/

/-- R140, whole: `RET` pops and jumps there; with no return address it raises `StackUnderflow` before anything is
written. -/
def Obligations.RetRule : Prop :=
  ∀ s : State,
    (∀ h : 0 < s.sp.val, ∃ t, exec .ret s = .next t ∧ t.pc = s.stack[s.sp.val - 1]'(by omega) ∧
      t.sp.val = s.sp.val - 1 ∧ t.stack = s.stack ∧ OnlyPcStack s t) ∧
    (s.sp.val = 0 → Raises .ret s .stackUnderflow 0 s)

/-- R142, whole: `CALL` pushes the advanced program counter and jumps; with 16 return addresses held it raises
`StackOverflow` before anything is written. -/
def Obligations.CallRule : Prop :=
  ∀ (s : State) (nnn : Addr12),
    (∀ h : s.sp.val < 16, ∃ t, exec (.call nnn) s = .next t ∧ t.pc.toNat = nnn.toNat ∧
      t.sp.val = s.sp.val + 1 ∧ t.stack[s.sp.val]'(by omega) = s.pc ∧
      (∀ k, (hk : k < 16) → k ≠ s.sp.val → t.stack[k]'hk = s.stack[k]'hk) ∧ OnlyPcStack s t) ∧
    (s.sp.val = 16 → Raises (.call nnn) s .stackOverflow 0 s)

/-- The call and return round trip (R140, R142): after a `CALL` that had room, a `RET` returns to the instruction after
the call with the depth it had. -/
def Obligations.CallThenRet : Prop :=
  ∀ (s : State) (nnn : Addr12), s.sp.val < 16 →
    ∃ t u, exec (.call nnn) s = .next t ∧ exec .ret t = .next u ∧ u.pc = s.pc ∧ u.sp = s.sp

/-- R141, R143: `JP nnn` goes to `nnn`, `JP V0, nnn` to `nnn + V[0]` with no reduction; no check (the spec's decisions
D9 and D11). -/
def Obligations.JumpRule : Prop :=
  ∀ (s : State) (nnn : Addr12),
    (∃ t, exec (.jp nnn) s = .next t ∧ t.pc.toNat = nnn.toNat ∧ OnlyPc s t) ∧
    (∃ t, exec (.jpV0 nnn) s = .next t ∧ t.pc.toNat = nnn.toNat + (s.reg 0).toNat ∧ OnlyPc s t)

/-- R144 to R148: the four skips on registers. The bound check of the extra advance is the spec's decision D31, its limit
D10. -/
def Obligations.RegisterSkips : Prop :=
  ∀ (s : State) (x y : Nibble) (kk : Byte),
    Skips (.seImm x kk) (s.reg x = kk) s ∧ Skips (.sneImm x kk) (s.reg x ≠ kk) s ∧
    Skips (.seReg x y) (s.reg x = s.reg y) s ∧ Skips (.sneReg x y) (s.reg x ≠ s.reg y) s

/-! ### Registers and the ALU -/

/-- R160, whole: `LD Vx, kk` writes `kk` to `V[x]` and nothing else. -/
def Obligations.LdImmRule : Prop :=
  ∀ (s : State) (x : Nibble) (kk : Byte), WritesReg (.ldImm x kk) s x kk

/-- R161: `ADD Vx, kk` adds modulo 256 and sets no flag (both inferences of the spec). -/
def Obligations.AddImmRule : Prop :=
  ∀ (s : State) (x : Nibble) (kk : Byte),
    WritesReg (.addImm x kk) s x (BitVec.ofNat 8 (((s.reg x).toNat + kk.toNat) % 256))

/-- R162 to R165, whole: `LD`, `OR`, `AND` and `XOR` of two registers write `V[x]` and nothing else; `VF` keeps its value
unless it is `V[x]`. -/
def Obligations.LoadAndBitwiseRule : Prop :=
  ∀ (s : State) (x y : Nibble),
    WritesReg (.ldReg x y) s x (s.reg y) ∧ WritesReg (.orReg x y) s x (s.reg x ||| s.reg y) ∧
    WritesReg (.andReg x y) s x (s.reg x &&& s.reg y) ∧ WritesReg (.xorReg x y) s x (s.reg x ^^^ s.reg y)

/-- R168: `ADD Vx, Vy` modulo 256, with the flag 1 exactly when the sum exceeds 255. Which of the two
survives in register 15 is `VF_WRITE_ORDER` (the spec's decision D15). -/
def Obligations.AddRegRule : Prop :=
  ∀ (s : State) (x y : Nibble),
    WritesFlagged (.addReg x y) s x (BitVec.ofNat 8 (((s.reg x).toNat + (s.reg y).toNat) % 256))
      (255 < (s.reg x).toNat + (s.reg y).toNat)

/-- R169, R171: `SUB` and `SUBN` modulo 256, with the flag 1 exactly when no borrow occurs. Which of the
two survives in register 15 is `VF_WRITE_ORDER` (the spec's decision D15). -/
def Obligations.SubtractRule : Prop :=
  ∀ (s : State) (x y : Nibble),
    WritesFlagged (.sub x y) s x (BitVec.ofNat 8 (((s.reg x).toNat + 256 - (s.reg y).toNat) % 256))
      ((s.reg y).toNat ≤ (s.reg x).toNat) ∧
    WritesFlagged (.subn x y) s x (BitVec.ofNat 8 (((s.reg y).toNat + 256 - (s.reg x).toNat) % 256))
      ((s.reg x).toNat ≤ (s.reg y).toNat)

/-- R170, R172: the shifts by one, with the bit shifted out in the flag. They shift `V[x]`, and `y` is ignored, where
`SHIFT_SOURCE` is `Vx` (the spec's decision D16), and `V[y]` where it is `Vy`. Which of result and flag survives in
register 15 is `VF_WRITE_ORDER` (its decision D15). -/
def Obligations.ShiftRule : Prop :=
  ∀ (s : State) (x y : Nibble) (a : Byte),
    (s.params.shiftSource = .vx → a = s.reg x) → (s.params.shiftSource = .vy → a = s.reg y) →
    WritesFlagged (.shr x y) s x (BitVec.ofNat 8 (a.toNat / 2)) (a.toNat % 2 = 1) ∧
    WritesFlagged (.shl x y) s x (BitVec.ofNat 8 (a.toNat * 2 % 256)) (128 ≤ a.toNat)

/-! ### The index register and memory -/

/-- R190: `LD I, nnn` writes the address, zero-extended, and nothing else (the zero extension is an inference of the
spec, from the widths of the field and of the register). -/
def Obligations.LdIRule : Prop :=
  ∀ (s : State) (nnn : Addr12), ∃ t, exec (.ldI nnn) s = .next t ∧ t.i.toNat = nnn.toNat ∧ OnlyIndex s t

/-- R191, R192: `ADD I, Vx` wraps at 2^16 and sets no flag (the spec's decision D12); `LD F, Vx` points at the glyph of
the low nibble (its decision D18). -/
def Obligations.IndexArithmeticRule : Prop :=
  ∀ (s : State) (x : Nibble),
    (∃ t, exec (.addI x) s = .next t ∧ t.i.toNat = (s.i.toNat + (s.reg x).toNat) % 65536 ∧ OnlyIndex s t) ∧
    (∃ t, exec (.ldF x) s = .next t ∧ t.i.toNat = 5 * ((s.reg x).toNat % 16) ∧ OnlyIndex s t)

/-- R193: `LD B, Vx` stores hundreds, tens and ones at `I`, `I+1`, `I+2` and leaves every other byte; below 512 it
stores nothing and faults; where it leaves memory the bytes below 4096 are stored and it faults with 4096 or, when `I` is
above, with `I` (the order of the writes is the spec's decision D33). -/
def Obligations.LdBRule : Prop :=
  ∀ (s : State) (x : Nibble), s.MemCanonical →
    (512 ≤ s.base → s.base + 3 ≤ 4096 → ∃ t, exec (.ldB x) s = .next t ∧ OnlyMem s t ∧
      (Memory.read t.mem s.base).toNat = (s.reg x).toNat / 100 ∧
      (Memory.read t.mem (s.base + 1)).toNat = (s.reg x).toNat / 10 % 10 ∧
      (Memory.read t.mem (s.base + 2)).toNat = (s.reg x).toNat % 10 ∧
      ∀ a, ¬ (s.base ≤ a ∧ a < s.base + 3) → Memory.read t.mem a = Memory.read s.mem a) ∧
    (s.base < 512 → Raises (.ldB x) s .protectedRegion s.base s) ∧
    (4096 < s.base + 3 → ∃ t, Raises (.ldB x) s .outOfBounds (max s.base 4096) t ∧ OnlyMem s t ∧
      ∀ a, Memory.read t.mem a = if h : s.base ≤ a ∧ a < s.base + 3 ∧ a < 4096
        then (bcdDigits (s.reg x))[a - s.base]'(by simp [bcdDigits]; omega) else Memory.read s.mem a)

/-- R194: `LD [I], Vx` stores `V[0]` .. `V[x]` from `I` upward and leaves every other byte, and `I` (the spec's decision
D17); below 512 it stores nothing and faults; where it leaves memory the registers below 4096 are stored (its decision
D33) and it faults. -/
def Obligations.LdMemVxRule : Prop :=
  ∀ (s : State) (x : Nibble), s.MemCanonical →
    (512 ≤ s.base → s.base + x.toNat < 4096 → ∃ t, exec (.ldMemVx x) s = .next t ∧ OnlyMem s t ∧
      (∀ k : Nibble, k.toNat ≤ x.toNat → Memory.read t.mem (s.base + k.toNat) = s.reg k) ∧
      ∀ a, ¬ (s.base ≤ a ∧ a ≤ s.base + x.toNat) → Memory.read t.mem a = Memory.read s.mem a) ∧
    (s.base < 512 → Raises (.ldMemVx x) s .protectedRegion s.base s) ∧
    (4096 ≤ s.base + x.toNat → ∃ t, Raises (.ldMemVx x) s .outOfBounds (max s.base 4096) t ∧ OnlyMem s t ∧
      (∀ k : Nibble, k.toNat ≤ x.toNat → s.base + k.toNat < 4096 →
        Memory.read t.mem (s.base + k.toNat) = s.reg k) ∧
      ∀ a, ¬ (s.base ≤ a ∧ a ≤ s.base + x.toNat ∧ a < 4096) → Memory.read t.mem a = Memory.read s.mem a)

/-- R195: `LD Vx, [I]` loads `V[0]` .. `V[x]` from `I` upward and leaves the other registers, and `I` (the spec's
decision D17); where it leaves memory the registers read from below 4096 are loaded (its decision D33) and it faults. -/
def Obligations.LdVxMemRule : Prop :=
  ∀ (s : State) (x : Nibble),
    (s.base + x.toNat < 4096 → ∃ t, exec (.ldVxMem x) s = .next t ∧ OnlyRegs s t ∧
      ∀ k : Nibble, t.reg k = if k.toNat ≤ x.toNat then Memory.read s.mem (s.base + k.toNat) else s.reg k) ∧
    (4096 ≤ s.base + x.toNat → ∃ t, Raises (.ldVxMem x) s .outOfBounds (max s.base 4096) t ∧ OnlyRegs s t ∧
      ∀ k : Nibble, t.reg k = if k.toNat ≤ x.toNat ∧ s.base + k.toNat < 4096
        then Memory.read s.mem (s.base + k.toNat) else s.reg k)

/-- The block round trip (R194, R195): registers 0 .. x stored at `I` and loaded back, into whatever register file, are
what they were. The load takes its address from the `I` the store left, so the round trip rests on `I` being unchanged by
`LD [I], Vx` (the spec's decision D17, log entry 21). -/
def Obligations.BlockRoundTrip : Prop :=
  ∀ (s : State) (x : Nibble) (v : Vector Byte 16), s.MemCanonical → 512 ≤ s.base → s.base + x.toNat < 4096 →
    ∃ t u, exec (.ldMemVx x) s = .next t ∧ exec (.ldVxMem x) { t with v := v } = .next u ∧
      ∀ k : Nibble, k.toNat ≤ x.toNat → u.reg k = s.reg k

/-! ### Timers and random -/

/-- R210, whole: `LD Vx, DT` reads the delay timer and leaves it. -/
def Obligations.ReadDelayRule : Prop :=
  ∀ (s : State) (x : Nibble), WritesReg (.ldVxDt x) s x s.dt

/-- R211, R212: `LD DT, Vx` and `LD ST, Vx` write the timer and emit one `TimerChange` (the event is the spec's decision
D34). -/
def Obligations.WriteTimerRule : Prop :=
  ∀ (s : State) (x : Nibble),
    exec (.ldDtVx x) s = .next { s with
      dt := s.reg x, events := s.events ++ [.timerChange .dt (s.reg x)] } ∧
    exec (.ldStVx x) s = .next { s with
      st := s.reg x, events := s.events ++ [.timerChange .st (s.reg x)] }

/-- R213: `RND Vx, kk` writes the random byte and the mask, whatever the byte; no bit is set that is clear in `kk`
(the source of the byte is the spec's decision D21). -/
def Obligations.RndRule : Prop :=
  ∀ (s : State) (x : Nibble) (kk : Byte),
    WritesReg (.rnd x kk) s x (s.inputs.randIn &&& kk) ∧
    ∀ t k, exec (.rnd x kk) s = .next t → kk.getLsbD k = false → (t.reg x).getLsbD k = false

/-! ### Display and keys -/

/-- R220: `CLS` emits one `ClearRequest` and changes no state of the block (the spec's decision D4). -/
def Obligations.ClsRule : Prop :=
  ∀ s : State, ∃ t, exec .cls s = .next t ∧ t.events = s.events ++ [.clearRequest] ∧ OnlyEvents s t

/-- R221, R222: `DRW` with its rows inside memory, or with none, sets `VF` to 1 exactly when a set sprite pixel lies over
a set display pixel, emits the rows, and changes nothing else, whatever the display. The bit order is from general
knowledge, the coordinates the spec's decision D22, zero rows its D23, and a coordinate in register 15 its D15. -/
def Obligations.DrwRule : Prop :=
  ∀ (s : State) (x y n : Nibble), n = 0 ∨ s.base + n.toNat ≤ 4096 →
    ∃ (t : State) (rows : List Byte), exec (.drw x y n) s = .next t ∧
      rows = (List.range n.toNat).map (fun r => Memory.read s.mem (s.base + r)) ∧
      t.events = s.events ++ [.drawRequest (s.reg x) (s.reg y) rows] ∧
      (t.vf = 1 ∨ t.vf = 0) ∧
      (t.vf = 1 ↔ ∃ r c, r < n.toNat ∧ c < 8 ∧ (Memory.read s.mem (s.base + r)).getLsbD (7 - c) = true ∧
        s.inputs.display.contains ((s.reg x).toNat + c, (s.reg y).toNat + r) = true) ∧
      (∀ k, k ≠ 15 → t.reg k = s.reg k) ∧ t = { s with v := t.v, events := t.events }

/-- R222: `DRW` whose rows leave memory faults with the first address that does not exist, with `VF` not written and no
draw request. -/
def Obligations.DrwFaults : Prop :=
  ∀ (s : State) (x y n : Nibble), n ≠ 0 → 4096 < s.base + n.toNat →
    Raises (.drw x y n) s .outOfBounds (max s.base 4096) s

/-- R223, R224, R226: `SKP` and `SKNP` skip on the level of the key the low nibble of `V[x]` names (the nibble is the
spec's decision D19). -/
def Obligations.KeySkips : Prop :=
  ∀ (s : State) (x : Nibble),
    Skips (.skp x) (s.inputs.keys.getLsbD ((s.reg x).toNat % 16) = true) s ∧
    Skips (.sknp x) (s.inputs.keys.getLsbD ((s.reg x).toNat % 16) = false) s

/-- R225, R46: with some key down `LD Vx, K` stores a key that is down, the one offered where that one is down, and
nothing else changes; with none down it steps the program counter back and emits one `KeyWaitRequest`. Which key is
stored is the spec's decision D20. -/
def Obligations.WaitKeyRule : Prop :=
  ∀ (s : State) (x : Nibble),
    (s.inputs.keys ≠ 0 → ∃ k : Nibble, s.inputs.keys.getLsbD k.toNat = true ∧
      (s.inputs.keys.getLsbD s.inputs.keyPick.toNat = true → k = s.inputs.keyPick) ∧
      WritesReg (.ldVxK x) s x (BitVec.ofNat 8 k.toNat)) ∧
    (s.inputs.keys = 0 → exec (.ldVxK x) s = .next { s with
      pc := s.pc - 2, events := s.events ++ [.keyWaitRequest x] })

/-- R225, R53: a step that waits for a key leaves the whole block exactly as it was before the fetch. -/
def Obligations.KeyWaitIsNoOp : Prop :=
  ∀ (s : State) (x : Nibble), s.Executes → decodeWord s.wordAtPc = .ldVxK x → s.inputs.keys = 0 →
    ∃ t, step s = .next t ∧ SameBlock s t ∧ t.events = [.keyWaitRequest x]

/-! ### Unassigned words and whole-machine rules -/

/-- R125: an `Unknown` word emits one `Diagnostic` with the word and changes nothing else (that the event carries the
word, and that the program counter has advanced, are the spec's decision D29). -/
def Obligations.UnknownRule : Prop :=
  ∀ (s : State) (w : Word), ∃ t, exec (.unknown w) s = .next t ∧ t.events = s.events ++ [.diagnostic w] ∧
    OnlyEvents s t

/-- R33: only `CALL` and `RET` touch the stack and `SP`. -/
def Obligations.StackOnlyByCallRet : Prop :=
  ∀ (i : Instr) (s t : State), usesStack i = false → exec i s = .next t → t.sp = s.sp ∧ t.stack = s.stack

/-- R34: only `LD I`, `ADD I` and `LD F` write the index register. -/
def Obligations.IndexWriters : Prop :=
  ∀ (i : Instr) (s t : State), writesIndex i = false → exec i s = .next t → t.i = s.i

/-- R23, R35, R126: a register that is not the instruction's destination, nor `VF` of an instruction that sets the flag,
keeps its value. -/
def Obligations.RegisterWriters : Prop :=
  ∀ (i : Instr) (s t : State) (k : Nibble), writesDest i k = false → ¬ (k = 15 ∧ setsFlag i = true) →
    exec i s = .next t → t.reg k = s.reg k

/-- R45 to R48: an instruction that reads no input does the same whatever the environment holds. -/
def Obligations.InputIndependence : Prop :=
  ∀ (i : Instr) (s : State) (sched : List Stimulus) (n : Nat), readsInput i = false →
    exec i { s with schedule := sched, drawn := n } =
      mapNext (fun t => { t with schedule := sched, drawn := n }) (exec i s)

/-- The parameters of a block are fixed (R8): no transition changes them. That they stand in the state is the model's
choice (log entry 27). -/
def Obligations.ParametersFixed : Prop :=
  ∀ s t : State, step s = .next t → t.params = s.params
end

