-- ==== Sys2Proof/Laws/Decode.lean ====
section
/-! SUPPORT. The fields of a word put together from fields, and a word put together from its own fields
(spec/30_encoding.md R92, R102). -/

namespace Sys2Proof

variable (op x y n : Nibble) (kk : Byte) (nnn : Addr12) (w : Word)

@[simp] theorem opField_encodeNnn : opField (encodeNnn op nnn) = op := by
  apply BitVec.eq_of_getLsbD_eq
  intro i hi
  simp only [opField, encodeNnn, BitVec.getLsbD_extractLsb',
    BitVec.getLsbD_append (x := op) (y := nnn)]
  simp [hi, show ¬ 12 + i < 12 by omega]

@[simp] theorem nnnField_encodeNnn : nnnField (encodeNnn op nnn) = nnn := by
  apply BitVec.eq_of_getLsbD_eq
  intro i hi
  simp only [nnnField, encodeNnn, BitVec.getLsbD_extractLsb',
    BitVec.getLsbD_append (x := op) (y := nnn)]
  simp [hi]

@[simp] theorem opField_encodeXkk : opField (encodeXkk op x kk) = op := by
  apply BitVec.eq_of_getLsbD_eq
  intro i hi
  simp only [opField, encodeXkk, BitVec.getLsbD_extractLsb',
    BitVec.getLsbD_append (x := op) (y := x ++ kk), BitVec.getLsbD_append (x := x) (y := kk)]
  simp [hi, show ¬ 12 + i < 12 by omega]

@[simp] theorem xField_encodeXkk : xField (encodeXkk op x kk) = x := by
  apply BitVec.eq_of_getLsbD_eq
  intro i hi
  simp only [xField, encodeXkk, BitVec.getLsbD_extractLsb',
    BitVec.getLsbD_append (x := op) (y := x ++ kk), BitVec.getLsbD_append (x := x) (y := kk)]
  simp [hi, show 8 + i < 12 by omega]

@[simp] theorem kkField_encodeXkk : kkField (encodeXkk op x kk) = kk := by
  apply BitVec.eq_of_getLsbD_eq
  intro i hi
  simp only [kkField, encodeXkk, BitVec.getLsbD_extractLsb',
    BitVec.getLsbD_append (x := op) (y := x ++ kk), BitVec.getLsbD_append (x := x) (y := kk)]
  simp [hi, show i < 12 by omega]

/-- The trailing byte's high nibble stands where `y` does. -/
@[simp] theorem yField_encodeXkk : yField (encodeXkk op x kk) = kk.extractLsb' 4 4 := by
  apply BitVec.eq_of_getLsbD_eq
  intro i hi
  simp only [yField, encodeXkk, BitVec.getLsbD_extractLsb',
    BitVec.getLsbD_append (x := op) (y := x ++ kk), BitVec.getLsbD_append (x := x) (y := kk)]
  simp [hi, show 4 + i < 12 by omega, show 4 + i < 8 by omega]

/-- The trailing byte's low nibble stands where `n` does. -/
@[simp] theorem nField_encodeXkk : nField (encodeXkk op x kk) = kk.extractLsb' 0 4 := by
  apply BitVec.eq_of_getLsbD_eq
  intro i hi
  simp only [nField, encodeXkk, BitVec.getLsbD_extractLsb',
    BitVec.getLsbD_append (x := op) (y := x ++ kk), BitVec.getLsbD_append (x := x) (y := kk)]
  simp [hi, show i < 12 by omega, show i < 8 by omega]

@[simp] theorem opField_encodeXyn : opField (encodeXyn op x y n) = op := by
  apply BitVec.eq_of_getLsbD_eq
  intro i hi
  simp only [opField, encodeXyn, BitVec.getLsbD_extractLsb',
    BitVec.getLsbD_append (x := op) (y := x ++ (y ++ n)),
    BitVec.getLsbD_append (x := x) (y := y ++ n), BitVec.getLsbD_append (x := y) (y := n)]
  simp [hi, show ¬ 12 + i < 12 by omega]

@[simp] theorem xField_encodeXyn : xField (encodeXyn op x y n) = x := by
  apply BitVec.eq_of_getLsbD_eq
  intro i hi
  simp only [xField, encodeXyn, BitVec.getLsbD_extractLsb',
    BitVec.getLsbD_append (x := op) (y := x ++ (y ++ n)),
    BitVec.getLsbD_append (x := x) (y := y ++ n), BitVec.getLsbD_append (x := y) (y := n)]
  simp [hi, show 8 + i < 12 by omega, show ¬ 8 + i < 8 by omega]

@[simp] theorem yField_encodeXyn : yField (encodeXyn op x y n) = y := by
  apply BitVec.eq_of_getLsbD_eq
  intro i hi
  simp only [yField, encodeXyn, BitVec.getLsbD_extractLsb',
    BitVec.getLsbD_append (x := op) (y := x ++ (y ++ n)),
    BitVec.getLsbD_append (x := x) (y := y ++ n), BitVec.getLsbD_append (x := y) (y := n)]
  simp [hi, show 4 + i < 12 by omega, show 4 + i < 8 by omega]

@[simp] theorem nField_encodeXyn : nField (encodeXyn op x y n) = n := by
  apply BitVec.eq_of_getLsbD_eq
  intro i hi
  simp only [nField, encodeXyn, BitVec.getLsbD_extractLsb',
    BitVec.getLsbD_append (x := op) (y := x ++ (y ++ n)),
    BitVec.getLsbD_append (x := x) (y := y ++ n), BitVec.getLsbD_append (x := y) (y := n)]
  simp [hi, show i < 12 by omega, show i < 8 by omega]

/-- The high and the low byte of a word put it together again (R66). -/
theorem wordOfBytes_bytes : wordOfBytes (highByte w) (lowByte w) = w := by
  apply BitVec.eq_of_getLsbD_eq
  intro i hi
  simp only [wordOfBytes, highByte, lowByte, BitVec.getLsbD_append, BitVec.getLsbD_extractLsb']
  by_cases h : i < 8
  · simp [h]
  · simp [h, show i - 8 < 8 by omega, show 8 + (i - 8) = i by omega]

/-- Format `NNN` loses no bit (R93). -/
theorem encodeNnn_fields : encodeNnn (opField w) (nnnField w) = w := by
  apply BitVec.eq_of_getLsbD_eq
  intro i hi
  simp only [encodeNnn, opField, nnnField, BitVec.getLsbD_append, BitVec.getLsbD_extractLsb']
  by_cases h : i < 12
  · simp [h]
  · simp [h, show i - 12 < 4 by omega, show 12 + (i - 12) = i by omega]

/-- Format `XKK` loses no bit (R93). -/
theorem encodeXkk_fields : encodeXkk (opField w) (xField w) (kkField w) = w := by
  apply BitVec.eq_of_getLsbD_eq
  intro i hi
  simp only [encodeXkk, opField, xField, kkField,
    BitVec.getLsbD_append (x := w.extractLsb' 12 4) (y := w.extractLsb' 8 4 ++ w.extractLsb' 0 8),
    BitVec.getLsbD_append (x := w.extractLsb' 8 4) (y := w.extractLsb' 0 8), BitVec.getLsbD_extractLsb']
  by_cases h : i < 8
  · simp [h, show i < 12 by omega]
  · by_cases h2 : i < 12
    · simp [h, h2, show i - 8 < 4 by omega, show 8 + (i - 8) = i by omega]
    · simp [h2, show i - 12 < 4 by omega, show 12 + (i - 12) = i by omega]

/-- Format `XYN` loses no bit (R93). -/
theorem encodeXyn_fields : encodeXyn (opField w) (xField w) (yField w) (nField w) = w := by
  apply BitVec.eq_of_getLsbD_eq
  intro i hi
  simp only [encodeXyn, opField, xField, yField, nField,
    BitVec.getLsbD_append (x := w.extractLsb' 12 4)
      (y := w.extractLsb' 8 4 ++ (w.extractLsb' 4 4 ++ w.extractLsb' 0 4)),
    BitVec.getLsbD_append (x := w.extractLsb' 8 4) (y := w.extractLsb' 4 4 ++ w.extractLsb' 0 4),
    BitVec.getLsbD_append (x := w.extractLsb' 4 4) (y := w.extractLsb' 0 4), BitVec.getLsbD_extractLsb']
  by_cases h : i < 4
  · simp [h, show i < 8 by omega, show i < 12 by omega]
  · by_cases h1 : i < 8
    · simp [h, h1, show i < 12 by omega, show i - 4 < 4 by omega, show 4 + (i - 4) = i by omega]
    · by_cases h2 : i < 12
      · simp [h1, h2, show i - 8 < 4 by omega, show 8 + (i - 8) = i by omega]
      · simp [h2, show i - 12 < 4 by omega, show 12 + (i - 12) = i by omega]

/-- Bitwise AND goes field by field. -/
theorem encodeXyn_and (a b c d : Nibble) :
    encodeXyn op x y n &&& encodeXyn a b c d = encodeXyn (op &&& a) (x &&& b) (y &&& c) (n &&& d) := by
  simp only [encodeXyn]
  rw [← BitVec.and_append, ← BitVec.and_append, ← BitVec.and_append]

/-- Two words are equal exactly when their four nibbles are. -/
theorem encodeXyn_inj (a b c d : Nibble) :
    encodeXyn op x y n = encodeXyn a b c d ↔ op = a ∧ x = b ∧ y = c ∧ n = d := by
  constructor
  · intro h
    exact ⟨by simpa using congrArg opField h, by simpa using congrArg xField h,
      by simpa using congrArg yField h, by simpa using congrArg nField h⟩
  · rintro ⟨rfl, rfl, rfl, rfl⟩; rfl

/-- The trailing byte is the two trailing nibbles. -/
theorem kkField_eq : kkField w = yField w ++ nField w := by
  apply BitVec.eq_of_getLsbD_eq
  intro i hi
  simp only [kkField, yField, nField, BitVec.getLsbD_append, BitVec.getLsbD_extractLsb']
  by_cases h : i < 4
  · simp [h, hi]
  · simp [h, hi, show i - 4 < 4 by omega, show 4 + (i - 4) = i by omega]

/-- The trailing byte of a word put together from nibbles. -/
@[simp] theorem kkField_encodeXyn : kkField (encodeXyn op x y n) = y ++ n := by
  rw [kkField_eq]; simp

/-- The sixteen nibbles. -/
theorem nibble_cases (a : Nibble) : a = 0 ∨ a = 1 ∨ a = 2 ∨ a = 3 ∨ a = 4 ∨ a = 5 ∨ a = 6 ∨ a = 7 ∨ a = 8 ∨
    a = 9 ∨ a = 10 ∨ a = 11 ∨ a = 12 ∨ a = 13 ∨ a = 14 ∨ a = 15 := by
  revert a; decide

/-- A mask nibble of ones keeps the nibble. -/
theorem nibble_and_ones (a : Nibble) : a &&& (15 : Nibble) = a := by revert a; decide

/-- A mask nibble of zeros clears it. -/
theorem nibble_and_zeros (a : Nibble) : a &&& (0 : Nibble) = 0 := by revert a; decide

/-- A row that fixes the nibbles of a mask of whole nibbles selects a word by its fields. -/
theorem selects_encodeXyn (a b c d op' x' y' n' : Nibble) :
    (Row.mk (encodeXyn a b c d) (encodeXyn op' x' y' n')).selects w =
      decide (opField w &&& a = op' ∧ xField w &&& b = x' ∧ yField w &&& c = y' ∧ nField w &&& d = n') := by
  rw [Row.selects, Bool.eq_iff_iff]
  simp only [beq_iff_eq, decide_eq_true_eq]
  rw [← encodeXyn_inj, ← encodeXyn_and, encodeXyn_fields]

end Sys2Proof
end

