-- ==== Sys2Proof/Laws/Memory.lean ====
section
/-! SUPPORT. Memory as data: reading after storing, and the canonical form (`Memory.wf`) that every memory operation
keeps. -/

namespace Sys2Proof.Machine

variable {m : Memory} {a k : Nat} {b c : Byte}

theorem Memory.wf_nil : Memory.wf [] = true := rfl

/-- The canonical form of a longer memory: its first entry, and the rest. -/
theorem Memory.wf_cons : Memory.wf ((k, c) :: m) = true ↔
    k < 4096 ∧ c ≠ unlistedByte k ∧ (∀ e ∈ m, k < e.1) ∧ Memory.wf m = true := by
  simp only [Memory.wf, Bool.and_eq_true, decide_eq_true_eq, List.all_eq_true, and_assoc]
  exact Iff.rfl

/-- An address below every listed one reads as an unlisted one does. -/
theorem Memory.read_of_lt (h : ∀ e ∈ m, a < e.1) : Memory.read m a = unlistedByte a := by
  cases m with
  | nil => rfl
  | cons e m =>
    have : a < e.1 := h e (by simp)
    simp [Memory.read, this]

/-- Reading after a store (R65): the byte stored, and elsewhere what was there. -/
theorem Memory.read_set (hm : Memory.wf m = true) (x : Nat) :
    Memory.read (Memory.set m a b) x = if x = a then b else Memory.read m x := by
  induction m with
  | nil =>
    simp only [Memory.set]
    split
    · next h => split <;> simp_all [Memory.read]
    · simp only [Memory.read]
      split <;> split <;> simp_all
  | cons e m ih =>
    obtain ⟨k, c⟩ := e
    obtain ⟨hk, hc, hlt, hw⟩ := Memory.wf_cons.mp hm
    have ih := ih hw
    simp only [Memory.set]
    split
    · next h =>
      split
      · next hb => by_cases hx : x = a <;> simp_all [Memory.read]
      · by_cases hx : x = a
        · simp [Memory.read, hx]
        · by_cases h2 : x < a
          · have : x < k := by omega
            simp [Memory.read, h2, hx, this]
          · simp [Memory.read, h2, hx]
    · next h =>
      split
      · next hak =>
        subst hak
        have hlow : Memory.read m a = unlistedByte a := Memory.read_of_lt hlt
        split
        · next hb =>
          by_cases hx : x = a
          · simp [hx, hlow, hb]
          · by_cases h2 : x < a
            · simp [Memory.read, h2, hx]
              exact Memory.read_of_lt fun e he => Nat.lt_trans h2 (hlt e he)
            · simp [Memory.read, h2, hx]
        · by_cases hx : x = a <;> simp [Memory.read, hx]
      · next hak =>
        simp only [Memory.read, ih]
        by_cases hx : x = a
        · subst hx; simp [h, hak]
        · simp [hx]

/-- A store adds no entry but its own. -/
theorem Memory.mem_set {e : Host.Cell} (h : e ∈ Memory.set m a b) : e ∈ m ∨ e = (a, b) := by
  induction m with
  | nil => grind [Memory.set]
  | cons d m ih => obtain ⟨k, c⟩ := d; grind [Memory.set]

/-- A store keeps the canonical form. -/
theorem Memory.wf_set (hm : Memory.wf m = true) (ha : a < 4096) : Memory.wf (Memory.set m a b) = true := by
  induction m with
  | nil =>
    simp only [Memory.set]
    split
    · rfl
    · next h => exact Memory.wf_cons.mpr ⟨ha, h, by simp, rfl⟩
  | cons d m ih =>
    obtain ⟨k, c⟩ := d
    obtain ⟨hk, hc, hlt, hw⟩ := Memory.wf_cons.mp hm
    simp only [Memory.set]
    split
    · next h =>
      split
      · exact hm
      · next hb =>
        refine Memory.wf_cons.mpr ⟨ha, hb, ?_, hm⟩
        intro e he
        rcases List.mem_cons.mp he with rfl | he
        · exact h
        · exact Nat.lt_trans h (hlt e he)
    · split
      · next hak =>
        split
        · exact hw
        · next hb => exact Memory.wf_cons.mpr ⟨ha, hb, hak ▸ hlt, hw⟩
      · next h hak =>
        refine Memory.wf_cons.mpr ⟨hk, hc, ?_, ih hw⟩
        intro e he
        rcases Memory.mem_set he with he | rfl
        · exact hlt e he
        · show k < a; omega

/-- Storing a sequence keeps the canonical form. -/
theorem Memory.wf_setBytes (bs : List Byte) (hm : Memory.wf m = true) (ha : a + bs.length ≤ 4096) :
    Memory.wf (Memory.setBytes m a bs) = true := by
  induction bs generalizing m a with
  | nil => exact hm
  | cons d bs ih =>
    simp only [List.length_cons] at ha
    exact ih (Memory.wf_set hm (by omega)) (by omega)

/-- Reading after storing a sequence: inside it the byte stored, outside what was there. -/
theorem Memory.read_setBytes (bs : List Byte) (hm : Memory.wf m = true) (ha : a + bs.length ≤ 4096) (x : Nat) :
    Memory.read (Memory.setBytes m a bs) x =
      if h : a ≤ x ∧ x < a + bs.length then bs[x - a]'(by omega) else Memory.read m x := by
  induction bs generalizing m a with
  | nil => rw [dif_neg (by simp only [List.length_nil]; omega)]; rfl
  | cons d bs ih =>
    simp only [List.length_cons] at ha
    simp only [Memory.setBytes]
    rw [ih (Memory.wf_set hm (by omega)) (by omega), Memory.read_set hm]
    by_cases h1 : a + 1 ≤ x ∧ x < a + 1 + bs.length
    · have h2 : a ≤ x ∧ x < a + (d :: bs).length := by simp; omega
      have e : x - a = x - (a + 1) + 1 := by omega
      rw [dif_pos h1, dif_pos h2]
      simp [e]
    · rw [dif_neg h1]
      by_cases hx : x = a
      · subst hx; simp
      · have h2 : ¬ (a ≤ x ∧ x < a + (d :: bs).length) := by simp; omega
        rw [dif_neg h2, if_neg hx]

/-- Reading a memory that lists nothing. -/
theorem Memory.read_nil (a : Nat) : Memory.read [] a = unlistedByte a := rfl

/-- What `Memory.construct`, which is irreducible, stands for. -/
theorem Memory.construct_eq (p : Params) :
    Memory.construct p = Memory.setBytes [] 0 ((List.range Config.reservedEnd).map p.resetByte) := by
  unfold Memory.construct; rfl

/-- Memory right after reset is in canonical form. -/
theorem Memory.wf_construct (p : Params) : Memory.wf (Memory.construct p) = true := by
  simp only [Memory.construct_eq]
  exact Memory.wf_setBytes _ rfl (by simp [Config.reservedEnd])

/-- The writable region does not depend on the parameters (R54). -/
theorem Params.resetByte_writable (p : Params) (h : 512 ≤ a) : p.resetByte a = 0 := by
  rw [Params.resetByte, dif_neg (by omega), if_neg (by simp only [Config.reservedEnd]; omega)]

/-- Right after reset every address reads as the parameters say (R40, R54). -/
theorem Memory.read_construct (p : Params) (a : Nat) : Memory.read (Memory.construct p) a = p.resetByte a := by
  simp only [Memory.construct_eq]
  rw [Memory.read_setBytes _ rfl (by simp [Config.reservedEnd])]
  by_cases h : a < 512
  · rw [dif_pos (by simp [Config.reservedEnd, h])]; simp
  · rw [dif_neg (by simp [Config.reservedEnd, h]), Memory.read_nil, unlistedByte,
      Params.resetByte_writable _ (by omega), Params.resetByte_writable _ (by omega)]

/-- Storing upward what unlisted addresses read as lists nothing. -/
theorem Memory.setBytes_unlisted (n : Nat) :
    Memory.setBytes [] a ((List.range' a n).map unlistedByte) = [] := by
  induction n generalizing a with
  | zero => rfl
  | succ n ih =>
    rw [List.range'_succ, List.map_cons, Memory.setBytes, Memory.set, if_pos rfl]
    exact ih

/-- With the spec's values memory right after reset lists nothing. -/
theorem Memory.construct_spec : Memory.construct Params.spec = [] := by
  simp only [Memory.construct_eq, List.range_eq_range']
  exact Memory.setBytes_unlisted _

/-- `State.reset` is the state right after reset with the spec's values. -/
theorem State.resetWith_spec : State.resetWith Params.spec = State.reset := by
  rw [State.resetWith, Memory.construct_spec]; rfl

end Sys2Proof.Machine
end

