-- ==== Sys2Proof/Laws/State.lean ====
section
/-! SUPPORT. One lemma per field per update of State, so that no later proof unfolds an update. -/

namespace Sys2Proof.Machine

variable (s : State)

@[simp] theorem State.setReg_v (x : Nibble) (b : Byte) : (s.setReg x b).v = s.v.set x.toNat b x.isLt := rfl
@[simp] theorem State.setReg_i (x : Nibble) (b : Byte) : (s.setReg x b).i = s.i := rfl
@[simp] theorem State.setReg_pc (x : Nibble) (b : Byte) : (s.setReg x b).pc = s.pc := rfl
@[simp] theorem State.setReg_stack (x : Nibble) (b : Byte) : (s.setReg x b).stack = s.stack := rfl
@[simp] theorem State.setReg_sp (x : Nibble) (b : Byte) : (s.setReg x b).sp = s.sp := rfl
@[simp] theorem State.setReg_dt (x : Nibble) (b : Byte) : (s.setReg x b).dt = s.dt := rfl
@[simp] theorem State.setReg_st (x : Nibble) (b : Byte) : (s.setReg x b).st = s.st := rfl
@[simp] theorem State.setReg_mem (x : Nibble) (b : Byte) : (s.setReg x b).mem = s.mem := rfl
@[simp] theorem State.setReg_run (x : Nibble) (b : Byte) : (s.setReg x b).run = s.run := rfl
@[simp] theorem State.setReg_fault (x : Nibble) (b : Byte) : (s.setReg x b).fault = s.fault := rfl
@[simp] theorem State.setReg_params (x : Nibble) (b : Byte) : (s.setReg x b).params = s.params := rfl
@[simp] theorem State.setReg_schedule (x : Nibble) (b : Byte) : (s.setReg x b).schedule = s.schedule := rfl
@[simp] theorem State.setReg_drawn (x : Nibble) (b : Byte) : (s.setReg x b).drawn = s.drawn := rfl
@[simp] theorem State.setReg_events (x : Nibble) (b : Byte) : (s.setReg x b).events = s.events := rfl
@[simp] theorem State.setReg_hostReport (x : Nibble) (b : Byte) : (s.setReg x b).hostReport = s.hostReport := rfl

@[simp] theorem State.setI_v (w : Word) : (s.setI w).v = s.v := rfl
@[simp] theorem State.setI_i (w : Word) : (s.setI w).i = w := rfl
@[simp] theorem State.setI_pc (w : Word) : (s.setI w).pc = s.pc := rfl
@[simp] theorem State.setI_stack (w : Word) : (s.setI w).stack = s.stack := rfl
@[simp] theorem State.setI_sp (w : Word) : (s.setI w).sp = s.sp := rfl
@[simp] theorem State.setI_dt (w : Word) : (s.setI w).dt = s.dt := rfl
@[simp] theorem State.setI_st (w : Word) : (s.setI w).st = s.st := rfl
@[simp] theorem State.setI_mem (w : Word) : (s.setI w).mem = s.mem := rfl
@[simp] theorem State.setI_run (w : Word) : (s.setI w).run = s.run := rfl
@[simp] theorem State.setI_fault (w : Word) : (s.setI w).fault = s.fault := rfl
@[simp] theorem State.setI_params (w : Word) : (s.setI w).params = s.params := rfl
@[simp] theorem State.setI_schedule (w : Word) : (s.setI w).schedule = s.schedule := rfl
@[simp] theorem State.setI_drawn (w : Word) : (s.setI w).drawn = s.drawn := rfl
@[simp] theorem State.setI_events (w : Word) : (s.setI w).events = s.events := rfl
@[simp] theorem State.setI_hostReport (w : Word) : (s.setI w).hostReport = s.hostReport := rfl

@[simp] theorem State.setPc_v (w : Word) : (s.setPc w).v = s.v := rfl
@[simp] theorem State.setPc_i (w : Word) : (s.setPc w).i = s.i := rfl
@[simp] theorem State.setPc_pc (w : Word) : (s.setPc w).pc = w := rfl
@[simp] theorem State.setPc_stack (w : Word) : (s.setPc w).stack = s.stack := rfl
@[simp] theorem State.setPc_sp (w : Word) : (s.setPc w).sp = s.sp := rfl
@[simp] theorem State.setPc_dt (w : Word) : (s.setPc w).dt = s.dt := rfl
@[simp] theorem State.setPc_st (w : Word) : (s.setPc w).st = s.st := rfl
@[simp] theorem State.setPc_mem (w : Word) : (s.setPc w).mem = s.mem := rfl
@[simp] theorem State.setPc_run (w : Word) : (s.setPc w).run = s.run := rfl
@[simp] theorem State.setPc_fault (w : Word) : (s.setPc w).fault = s.fault := rfl
@[simp] theorem State.setPc_params (w : Word) : (s.setPc w).params = s.params := rfl
@[simp] theorem State.setPc_schedule (w : Word) : (s.setPc w).schedule = s.schedule := rfl
@[simp] theorem State.setPc_drawn (w : Word) : (s.setPc w).drawn = s.drawn := rfl
@[simp] theorem State.setPc_events (w : Word) : (s.setPc w).events = s.events := rfl
@[simp] theorem State.setPc_hostReport (w : Word) : (s.setPc w).hostReport = s.hostReport := rfl

@[simp] theorem State.setDt_v (b : Byte) : (s.setDt b).v = s.v := rfl
@[simp] theorem State.setDt_i (b : Byte) : (s.setDt b).i = s.i := rfl
@[simp] theorem State.setDt_pc (b : Byte) : (s.setDt b).pc = s.pc := rfl
@[simp] theorem State.setDt_stack (b : Byte) : (s.setDt b).stack = s.stack := rfl
@[simp] theorem State.setDt_sp (b : Byte) : (s.setDt b).sp = s.sp := rfl
@[simp] theorem State.setDt_dt (b : Byte) : (s.setDt b).dt = b := rfl
@[simp] theorem State.setDt_st (b : Byte) : (s.setDt b).st = s.st := rfl
@[simp] theorem State.setDt_mem (b : Byte) : (s.setDt b).mem = s.mem := rfl
@[simp] theorem State.setDt_run (b : Byte) : (s.setDt b).run = s.run := rfl
@[simp] theorem State.setDt_fault (b : Byte) : (s.setDt b).fault = s.fault := rfl
@[simp] theorem State.setDt_params (b : Byte) : (s.setDt b).params = s.params := rfl
@[simp] theorem State.setDt_schedule (b : Byte) : (s.setDt b).schedule = s.schedule := rfl
@[simp] theorem State.setDt_drawn (b : Byte) : (s.setDt b).drawn = s.drawn := rfl
@[simp] theorem State.setDt_events (b : Byte) : (s.setDt b).events = s.events := rfl
@[simp] theorem State.setDt_hostReport (b : Byte) : (s.setDt b).hostReport = s.hostReport := rfl

@[simp] theorem State.setSt_v (b : Byte) : (s.setSt b).v = s.v := rfl
@[simp] theorem State.setSt_i (b : Byte) : (s.setSt b).i = s.i := rfl
@[simp] theorem State.setSt_pc (b : Byte) : (s.setSt b).pc = s.pc := rfl
@[simp] theorem State.setSt_stack (b : Byte) : (s.setSt b).stack = s.stack := rfl
@[simp] theorem State.setSt_sp (b : Byte) : (s.setSt b).sp = s.sp := rfl
@[simp] theorem State.setSt_dt (b : Byte) : (s.setSt b).dt = s.dt := rfl
@[simp] theorem State.setSt_st (b : Byte) : (s.setSt b).st = b := rfl
@[simp] theorem State.setSt_mem (b : Byte) : (s.setSt b).mem = s.mem := rfl
@[simp] theorem State.setSt_run (b : Byte) : (s.setSt b).run = s.run := rfl
@[simp] theorem State.setSt_fault (b : Byte) : (s.setSt b).fault = s.fault := rfl
@[simp] theorem State.setSt_params (b : Byte) : (s.setSt b).params = s.params := rfl
@[simp] theorem State.setSt_schedule (b : Byte) : (s.setSt b).schedule = s.schedule := rfl
@[simp] theorem State.setSt_drawn (b : Byte) : (s.setSt b).drawn = s.drawn := rfl
@[simp] theorem State.setSt_events (b : Byte) : (s.setSt b).events = s.events := rfl
@[simp] theorem State.setSt_hostReport (b : Byte) : (s.setSt b).hostReport = s.hostReport := rfl

@[simp] theorem State.setMem_v (m : Memory) : (s.setMem m).v = s.v := rfl
@[simp] theorem State.setMem_i (m : Memory) : (s.setMem m).i = s.i := rfl
@[simp] theorem State.setMem_pc (m : Memory) : (s.setMem m).pc = s.pc := rfl
@[simp] theorem State.setMem_stack (m : Memory) : (s.setMem m).stack = s.stack := rfl
@[simp] theorem State.setMem_sp (m : Memory) : (s.setMem m).sp = s.sp := rfl
@[simp] theorem State.setMem_dt (m : Memory) : (s.setMem m).dt = s.dt := rfl
@[simp] theorem State.setMem_st (m : Memory) : (s.setMem m).st = s.st := rfl
@[simp] theorem State.setMem_mem (m : Memory) : (s.setMem m).mem = m := rfl
@[simp] theorem State.setMem_run (m : Memory) : (s.setMem m).run = s.run := rfl
@[simp] theorem State.setMem_fault (m : Memory) : (s.setMem m).fault = s.fault := rfl
@[simp] theorem State.setMem_params (m : Memory) : (s.setMem m).params = s.params := rfl
@[simp] theorem State.setMem_schedule (m : Memory) : (s.setMem m).schedule = s.schedule := rfl
@[simp] theorem State.setMem_drawn (m : Memory) : (s.setMem m).drawn = s.drawn := rfl
@[simp] theorem State.setMem_events (m : Memory) : (s.setMem m).events = s.events := rfl
@[simp] theorem State.setMem_hostReport (m : Memory) : (s.setMem m).hostReport = s.hostReport := rfl

@[simp] theorem State.emit_v (e : Event) : (s.emit e).v = s.v := rfl
@[simp] theorem State.emit_i (e : Event) : (s.emit e).i = s.i := rfl
@[simp] theorem State.emit_pc (e : Event) : (s.emit e).pc = s.pc := rfl
@[simp] theorem State.emit_stack (e : Event) : (s.emit e).stack = s.stack := rfl
@[simp] theorem State.emit_sp (e : Event) : (s.emit e).sp = s.sp := rfl
@[simp] theorem State.emit_dt (e : Event) : (s.emit e).dt = s.dt := rfl
@[simp] theorem State.emit_st (e : Event) : (s.emit e).st = s.st := rfl
@[simp] theorem State.emit_mem (e : Event) : (s.emit e).mem = s.mem := rfl
@[simp] theorem State.emit_run (e : Event) : (s.emit e).run = s.run := rfl
@[simp] theorem State.emit_fault (e : Event) : (s.emit e).fault = s.fault := rfl
@[simp] theorem State.emit_params (e : Event) : (s.emit e).params = s.params := rfl
@[simp] theorem State.emit_schedule (e : Event) : (s.emit e).schedule = s.schedule := rfl
@[simp] theorem State.emit_drawn (e : Event) : (s.emit e).drawn = s.drawn := rfl
@[simp] theorem State.emit_events (e : Event) : (s.emit e).events = s.events ++ [e] := rfl
@[simp] theorem State.emit_hostReport (e : Event) : (s.emit e).hostReport = s.hostReport := rfl

@[simp] theorem State.begin_v : (s.begin).v = s.v := rfl
@[simp] theorem State.begin_i : (s.begin).i = s.i := rfl
@[simp] theorem State.begin_pc : (s.begin).pc = s.pc := rfl
@[simp] theorem State.begin_stack : (s.begin).stack = s.stack := rfl
@[simp] theorem State.begin_sp : (s.begin).sp = s.sp := rfl
@[simp] theorem State.begin_dt : (s.begin).dt = s.dt := rfl
@[simp] theorem State.begin_st : (s.begin).st = s.st := rfl
@[simp] theorem State.begin_mem : (s.begin).mem = s.mem := rfl
@[simp] theorem State.begin_run : (s.begin).run = s.run := rfl
@[simp] theorem State.begin_fault : (s.begin).fault = s.fault := rfl
@[simp] theorem State.begin_params : (s.begin).params = s.params := rfl
@[simp] theorem State.begin_schedule : (s.begin).schedule = s.schedule := rfl
@[simp] theorem State.begin_drawn : (s.begin).drawn = s.drawn := rfl
@[simp] theorem State.begin_events : (s.begin).events = [] := rfl
@[simp] theorem State.begin_hostReport : (s.begin).hostReport = none := rfl

@[simp] theorem raise_v (c : FaultCode) (info : Nat) : (raise c info s).v = s.v := rfl
@[simp] theorem raise_i (c : FaultCode) (info : Nat) : (raise c info s).i = s.i := rfl
@[simp] theorem raise_pc (c : FaultCode) (info : Nat) : (raise c info s).pc = s.pc := rfl
@[simp] theorem raise_stack (c : FaultCode) (info : Nat) : (raise c info s).stack = s.stack := rfl
@[simp] theorem raise_sp (c : FaultCode) (info : Nat) : (raise c info s).sp = s.sp := rfl
@[simp] theorem raise_dt (c : FaultCode) (info : Nat) : (raise c info s).dt = s.dt := rfl
@[simp] theorem raise_st (c : FaultCode) (info : Nat) : (raise c info s).st = s.st := rfl
@[simp] theorem raise_mem (c : FaultCode) (info : Nat) : (raise c info s).mem = s.mem := rfl
@[simp] theorem raise_run (c : FaultCode) (info : Nat) : (raise c info s).run = .halted := rfl
@[simp] theorem raise_fault (c : FaultCode) (info : Nat) : (raise c info s).fault = ⟨c, BitVec.ofNat 17 info⟩ := rfl
@[simp] theorem raise_params (c : FaultCode) (info : Nat) : (raise c info s).params = s.params := rfl
@[simp] theorem raise_schedule (c : FaultCode) (info : Nat) : (raise c info s).schedule = s.schedule := rfl
@[simp] theorem raise_drawn (c : FaultCode) (info : Nat) : (raise c info s).drawn = s.drawn := rfl
@[simp] theorem raise_events (c : FaultCode) (info : Nat) : (raise c info s).events = [.faultReport c (BitVec.ofNat 17 info)] := rfl
@[simp] theorem raise_hostReport (c : FaultCode) (info : Nat) : (raise c info s).hostReport = s.hostReport := rfl

@[simp] theorem State.consume_v : s.consume.v = s.v := by unfold State.consume; split <;> rfl
@[simp] theorem State.consume_i : s.consume.i = s.i := by unfold State.consume; split <;> rfl
@[simp] theorem State.consume_pc : s.consume.pc = s.pc := by unfold State.consume; split <;> rfl
@[simp] theorem State.consume_stack : s.consume.stack = s.stack := by unfold State.consume; split <;> rfl
@[simp] theorem State.consume_sp : s.consume.sp = s.sp := by unfold State.consume; split <;> rfl
@[simp] theorem State.consume_dt : s.consume.dt = s.dt := by unfold State.consume; split <;> rfl
@[simp] theorem State.consume_st : s.consume.st = s.st := by unfold State.consume; split <;> rfl
@[simp] theorem State.consume_mem : s.consume.mem = s.mem := by unfold State.consume; split <;> rfl
@[simp] theorem State.consume_run : s.consume.run = s.run := by unfold State.consume; split <;> rfl
@[simp] theorem State.consume_fault : s.consume.fault = s.fault := by unfold State.consume; split <;> rfl
@[simp] theorem State.consume_params : s.consume.params = s.params := by unfold State.consume; split <;> rfl
@[simp] theorem State.consume_events : s.consume.events = s.events := by unfold State.consume; split <;> rfl
@[simp] theorem State.consume_hostReport : s.consume.hostReport = s.hostReport := by unfold State.consume; split <;> rfl

/-- What using up a stimulus does to a store that is not empty. -/
theorem State.consume_of_cons (t : Stimulus) (rest : List Stimulus) (h : s.schedule = t :: rest) :
    s.consume = { s with schedule := rest } := by
  unfold State.consume; rw [h]

/-- What using up a stimulus does to an empty store. -/
theorem State.consume_of_nil (h : s.schedule = []) : s.consume = { s with drawn := s.drawn + 1 } := by
  unfold State.consume; rw [h]

theorem State.stimulus_of_cons (t : Stimulus) (rest : List Stimulus) (h : s.schedule = t :: rest) :
    s.stimulus = t := by
  unfold State.stimulus; rw [h]

/-- The pending stimulus depends on nothing but the environment's two fields. -/
theorem State.stimulus_congr (t : State) (h1 : t.schedule = s.schedule) (h2 : t.drawn = s.drawn) :
    t.stimulus = s.stimulus := by
  unfold State.stimulus; rw [h1, h2]

@[simp] theorem State.setReg_stimulus (x : Nibble) (b : Byte) : (s.setReg x b).stimulus = s.stimulus := rfl
@[simp] theorem State.setI_stimulus (w : Word) : (s.setI w).stimulus = s.stimulus := rfl
@[simp] theorem State.setPc_stimulus (w : Word) : (s.setPc w).stimulus = s.stimulus := rfl
@[simp] theorem State.setDt_stimulus (b : Byte) : (s.setDt b).stimulus = s.stimulus := rfl
@[simp] theorem State.setSt_stimulus (b : Byte) : (s.setSt b).stimulus = s.stimulus := rfl
@[simp] theorem State.setMem_stimulus (m : Memory) : (s.setMem m).stimulus = s.stimulus := rfl
@[simp] theorem State.emit_stimulus (e : Event) : (s.emit e).stimulus = s.stimulus := rfl
@[simp] theorem State.begin_stimulus : (s.begin).stimulus = s.stimulus := rfl
@[simp] theorem raise_stimulus (c : FaultCode) (info : Nat) : (raise c info s).stimulus = s.stimulus := rfl

/-- Reading a register after writing one (R12). -/
theorem State.reg_setReg (x y : Nibble) (b : Byte) :
    (s.setReg x b).reg y = if y = x then b else s.reg y := by
  simp only [State.reg, State.setReg_v, Vector.getElem_set]
  by_cases h : y = x
  · subst h; simp
  · have : x.toNat ≠ y.toNat := fun e => h (BitVec.eq_of_toNat_eq e.symm)
    simp [h, this]

@[simp] theorem State.reg_setReg_self (x : Nibble) (b : Byte) : (s.setReg x b).reg x = b := by
  simp [State.reg_setReg]

@[simp] theorem State.reg_setReg_of_ne (x y : Nibble) (b : Byte) (h : y ≠ x) :
    (s.setReg x b).reg y = s.reg y := by
  simp [State.reg_setReg, h]

@[simp] theorem State.setI_reg (w : Word) (x : Nibble) : (s.setI w).reg x = s.reg x := rfl
@[simp] theorem State.setPc_reg (w : Word) (x : Nibble) : (s.setPc w).reg x = s.reg x := rfl
@[simp] theorem State.setDt_reg (b : Byte) (x : Nibble) : (s.setDt b).reg x = s.reg x := rfl
@[simp] theorem State.setSt_reg (b : Byte) (x : Nibble) : (s.setSt b).reg x = s.reg x := rfl
@[simp] theorem State.setMem_reg (m : Memory) (x : Nibble) : (s.setMem m).reg x = s.reg x := rfl
@[simp] theorem State.emit_reg (e : Event) (x : Nibble) : (s.emit e).reg x = s.reg x := rfl
@[simp] theorem State.begin_reg (x : Nibble) : (s.begin).reg x = s.reg x := rfl
@[simp] theorem raise_reg (c : FaultCode) (info : Nat) (x : Nibble) : (raise c info s).reg x = s.reg x := rfl
@[simp] theorem State.consume_reg (x : Nibble) : s.consume.reg x = s.reg x := by
  simp [State.reg]

/-- Two register files that agree on every register are equal. -/
theorem State.v_ext (t : State) (h : ∀ x, t.reg x = s.reg x) : t.v = s.v := by
  apply Vector.ext
  intro k hk
  have := h (BitVec.ofNat 4 k)
  simpa [State.reg, Nat.mod_eq_of_lt (show k < 16 from hk)] using this

end Sys2Proof.Machine
end

