-- ==== Sys2Proof/Laws/Ops.lean ====
section
/-! SUPPORT. One lemma per shared operation that says everything it can do. Later proofs cite these and do not unfold
the operations. -/

namespace Sys2Proof.Machine

variable {s t : State} {a : Nat} {b : Byte}

@[simp] theorem Flow.bind_done {α β : Type} (x : α) (k : α → State → Flow β) :
    (Flow.done x s).bind k = k x s := rfl

@[simp] theorem Flow.bind_raised {α β : Type} (k : α → State → Flow β) :
    (Flow.raised s : Flow α).bind k = .raised s := rfl

@[simp] theorem Flow.result_done : (Flow.done () s).result = .next s := rfl

@[simp] theorem Flow.result_raised : (Flow.raised s : Flow Unit).result = .next s := rfl

/-- Every flow ends in a next state. -/
theorem Flow.result_next (f : Flow Unit) : ∃ t, f.result = .next t := by cases f <;> exact ⟨_, rfl⟩

/-- `MemRead` of an address that exists (R62). -/
theorem memRead_done (h : a < 4096) : memRead a s = .done (Memory.read s.mem a) s := by
  simp [memRead, Config.memSize, Nat.not_le.mpr h]

/-- `MemRead` of an address that does not (R62). -/
theorem memRead_raised (h : 4096 ≤ a) : memRead a s = .raised (raise .outOfBounds a s) := by
  simp [memRead, Config.memSize, h]

/-- `MemWrite` in the writable region (R63). -/
theorem memWrite_done (h1 : 512 ≤ a) (h2 : a < 4096) :
    memWrite a b s = .done () (s.setMem (Memory.set s.mem a b)) := by
  simp [memWrite, Config.memSize, Config.reservedEnd, Nat.not_lt.mpr h1, Nat.not_le.mpr h2]

/-- `MemWrite` below the reserved boundary (R63). -/
theorem memWrite_protected (h : a < 512) : memWrite a b s = .raised (raise .protectedRegion a s) := by
  simp [memWrite, Config.reservedEnd, h]

/-- `MemWrite` above memory (R63). -/
theorem memWrite_outOfBounds (h : 4096 ≤ a) : memWrite a b s = .raised (raise .outOfBounds a s) := by
  simp [memWrite, Config.memSize, Config.reservedEnd, h, show ¬ a < 512 by omega]

/-- Reads upward, all of them inside memory: the bytes, and the state as it was. -/
theorem readBytes_done (n : Nat) (h : n = 0 ∨ a + n ≤ 4096) :
    readBytes n a s = .done ((List.range n).map fun k => Memory.read s.mem (a + k)) s := by
  induction n generalizing a with
  | zero => rfl
  | succ n ih =>
    rw [readBytes, memRead_done (by omega)]
    simp only [Flow.bind_done]
    rw [ih (a := a + 1) (by omega)]
    simp [List.range_succ_eq_map, Nat.add_assoc, Nat.add_comm 1]

/-- Reads upward that leave memory: the fault of the first address that does not exist, and nothing else changed. -/
theorem readBytes_raised (n : Nat) (h0 : 0 < n) (h : 4096 < a + n) :
    readBytes n a s = .raised (raise .outOfBounds (max a 4096) s) := by
  induction n generalizing a with
  | zero => omega
  | succ n ih =>
    rw [readBytes]
    by_cases ha : a < 4096
    · rw [memRead_done ha]
      simp only [Flow.bind_done]
      rw [ih (a := a + 1) (by omega) (by omega)]
      simp [show max (a + 1) 4096 = max a 4096 by omega]
    · rw [memRead_raised (by omega)]
      simp [show max a 4096 = a by omega]

/-- Writes upward, all of them in the writable region. -/
theorem writeBytes_done (bs : List Byte) (h1 : 512 ≤ a) (h2 : a + bs.length ≤ 4096) :
    writeBytes bs a s = .done () (s.setMem (Memory.setBytes s.mem a bs)) := by
  induction bs generalizing a s with
  | nil => rfl
  | cons d bs ih =>
    simp only [List.length_cons] at h2
    rw [writeBytes, memWrite_done h1 (by omega)]
    simp only [Flow.bind_done]
    rw [ih (by omega) (by omega)]
    rfl

/-- Writes upward that begin below the boundary: the first one faults and nothing is stored. -/
theorem writeBytes_protected (bs : List Byte) (h0 : bs ≠ []) (h : a < 512) :
    writeBytes bs a s = .raised (raise .protectedRegion a s) := by
  cases bs with
  | nil => exact absurd rfl h0
  | cons d bs => rw [writeBytes, memWrite_protected h]; rfl

/-- Writes upward that leave memory: the fault of the first address that does not exist; the bytes below it are
stored. -/
theorem writeBytes_outOfBounds (bs : List Byte) (h0 : bs ≠ []) (h1 : 512 ≤ a) (h2 : 4096 < a + bs.length) :
    writeBytes bs a s =
      .raised (raise .outOfBounds (max a 4096) (s.setMem (Memory.setBytes s.mem a (bs.take (4096 - a))))) := by
  induction bs generalizing a s with
  | nil => exact absurd rfl h0
  | cons d bs ih =>
    simp only [List.length_cons] at h2
    rw [writeBytes]
    by_cases ha : a < 4096
    · rw [memWrite_done h1 ha]
      simp only [Flow.bind_done]
      by_cases hb : bs = []
      · subst hb; simp at h2; omega
      · rw [ih hb (by omega) (by omega)]
        rw [show 4096 - a = (4096 - (a + 1)) + 1 by omega]
        simp [show max (a + 1) 4096 = max a 4096 by omega, Memory.setBytes, State.setMem]
    · rw [memWrite_outOfBounds (by omega)]
      simp [show max a 4096 = a by omega, show 4096 - a = 0 by omega, Memory.setBytes, State.setMem]

/-- Whatever happens, writes change only memory, or memory and what a raise changes. -/
theorem writeBytes_cases (bs : List Byte) :
    (∃ m, writeBytes bs a s = .done () (s.setMem m)) ∨
    (∃ m c x, (c = .outOfBounds ∨ c = .protectedRegion) ∧
      writeBytes bs a s = .raised (raise c x (s.setMem m))) := by
  by_cases h0 : bs = []
  · subst h0; exact .inl ⟨s.mem, rfl⟩
  · by_cases h1 : a < 512
    · exact .inr ⟨s.mem, _, _, .inr rfl, writeBytes_protected bs h0 h1⟩
    · by_cases h2 : a + bs.length ≤ 4096
      · exact .inl ⟨_, writeBytes_done bs (by omega) h2⟩
      · exact .inr ⟨_, _, _, .inl rfl, writeBytes_outOfBounds bs h0 (by omega) (by omega)⟩

/-- The register file after loading bytes read from `a` upward into `V[k]`, `V[k+1]`, .. -/
theorem loadRegs_done (n k : Nat) (hk : k + n ≤ 16) (h : n = 0 ∨ a + n ≤ 4096) :
    ∃ t, loadRegs n k a s = .done () t ∧ t = { s with v := t.v } ∧
      ∀ x : Nibble, t.reg x = if k ≤ x.toNat ∧ x.toNat < k + n then Memory.read s.mem (a + (x.toNat - k)) else s.reg x := by
  induction n generalizing k a s with
  | zero => exact ⟨s, rfl, rfl, fun x => by rw [if_neg (by omega)]⟩
  | succ n ih =>
    rw [loadRegs, memRead_done (by omega)]
    simp only [Flow.bind_done]
    obtain ⟨t, ht, he, hr⟩ := ih (a := a + 1) (s := s.setReg (BitVec.ofNat 4 k) (Memory.read s.mem a))
      (k + 1) (by omega) (by omega)
    refine ⟨t, ht, by rw [he]; rfl, fun x => ?_⟩
    rw [hr x, State.reg_setReg, State.setReg_mem]
    by_cases h1 : k + 1 ≤ x.toNat ∧ x.toNat < k + 1 + n
    · rw [if_pos h1, if_pos (by omega)]
      congr 1; omega
    · rw [if_neg h1]
      by_cases h2 : x = BitVec.ofNat 4 k
      · have : x.toNat = k := by rw [h2]; simp; omega
        rw [if_pos h2, if_pos (by omega), this]; simp
      · have : x.toNat ≠ k := fun e => h2 (BitVec.eq_of_toNat_eq (by simp [e]; omega))
        rw [if_neg h2, if_neg (by omega)]

/-- Loads that leave memory: the fault of the first address that does not exist; the registers before it are
loaded. -/
theorem loadRegs_raised (n k : Nat) (hk : k + n ≤ 16) (h0 : 0 < n) (h : 4096 < a + n) :
    ∃ t, loadRegs n k a s = .raised (raise .outOfBounds (max a 4096) t) ∧ t = { s with v := t.v } ∧
      ∀ x : Nibble, t.reg x = if k ≤ x.toNat ∧ x.toNat < k + n ∧ a + (x.toNat - k) < 4096
        then Memory.read s.mem (a + (x.toNat - k)) else s.reg x := by
  induction n generalizing k a s with
  | zero => omega
  | succ n ih =>
    rw [loadRegs]
    by_cases ha : a < 4096
    · rw [memRead_done ha]
      simp only [Flow.bind_done]
      obtain ⟨t, ht, he, hr⟩ := ih (a := a + 1) (s := s.setReg (BitVec.ofNat 4 k) (Memory.read s.mem a))
        (k + 1) (by omega) (by omega) (by omega)
      refine ⟨t, by rw [ht, show max (a + 1) 4096 = max a 4096 by omega], by rw [he]; rfl, fun x => ?_⟩
      rw [hr x, State.reg_setReg, State.setReg_mem]
      by_cases h1 : k + 1 ≤ x.toNat
      · have e : a + 1 + (x.toNat - (k + 1)) = a + (x.toNat - k) := by omega
        have hne : x ≠ BitVec.ofNat 4 k := fun h2 => by rw [h2] at h1; simp at h1; omega
        rw [e, if_neg hne]
        by_cases h3 : x.toNat < k + 1 + n ∧ a + (x.toNat - k) < 4096
        · rw [if_pos ⟨h1, h3⟩, if_pos (by omega)]
        · rw [if_neg (by omega), if_neg (by omega)]
      · rw [if_neg (by omega)]
        by_cases h2 : x = BitVec.ofNat 4 k
        · have : x.toNat = k := by rw [h2]; simp; omega
          rw [if_pos h2, if_pos (by omega), this]; simp
        · have : x.toNat ≠ k := fun e => h2 (BitVec.eq_of_toNat_eq (by simp [e]; omega))
          rw [if_neg h2, if_neg (by omega)]
    · rw [memRead_raised (by omega)]
      refine ⟨s, by simp [show max a 4096 = a by omega], rfl, fun x => by rw [if_neg (by omega)]⟩

/-- Whatever happens, loads change only general registers, or those and what a raise changes. -/
theorem loadRegs_cases (n k : Nat) :
    (∃ v, loadRegs n k a s = .done () { s with v := v }) ∨
    (∃ v x, loadRegs n k a s = .raised (raise .outOfBounds x { s with v := v })) := by
  induction n generalizing k a s with
  | zero => exact .inl ⟨s.v, rfl⟩
  | succ n ih =>
    rw [loadRegs]
    by_cases ha : a < 4096
    · rw [memRead_done ha]
      exact ih (a := a + 1) (s := s.setReg (BitVec.ofNat 4 k) (Memory.read s.mem a)) (k + 1)
    · rw [memRead_raised (by omega)]
      exact .inr ⟨s.v, a, rfl⟩

/-- `PC_ADVANCE_LIMIT` is 4095 or 4096 (R8). -/
theorem AdvanceLimit.value_bounds (l : AdvanceLimit) : 4095 ≤ l.value ∧ l.value ≤ 4096 := by cases l <;> decide

/-- `AdvancePC` within the limit (R27). -/
theorem advancePC_done (h : s.pc.toNat + 2 ≤ s.params.pcAdvanceLimit.value) :
    advancePC s = .done () (s.setPc (BitVec.ofNat 16 (s.pc.toNat + 2))) := by
  simp [advancePC, Nat.not_lt.mpr h]

/-- `AdvancePC` above the limit (R27): the program counter stays. -/
theorem advancePC_raised (h : s.params.pcAdvanceLimit.value < s.pc.toNat + 2) :
    advancePC s = .raised (raise .outOfBounds (s.pc.toNat + 2) s) := by
  simp [advancePC, h]

/-- `Push` with room (R31). -/
theorem push_done (w : Word) (h : s.sp.val < 16) :
    push w s = .done () { s with stack := s.stack.set s.sp.val w h, sp := ⟨s.sp.val + 1, by omega⟩ } := by
  simp [push, h]

/-- `Push` with none (R31): neither the stack nor `SP` changes. -/
theorem push_raised (w : Word) (h : s.sp.val = 16) : push w s = .raised (raise .stackOverflow 0 s) := by
  simp [push, h]

/-- `Pop` of an occupied stack (R32). -/
theorem pop_done (h : 0 < s.sp.val) :
    pop s = .done (s.stack[s.sp.val - 1]'(by omega)) { s with sp := ⟨s.sp.val - 1, by omega⟩ } := by
  simp [pop, h]

/-- `Pop` of an empty one (R32): neither the stack nor `SP` changes. -/
theorem pop_raised (h : s.sp.val = 0) : pop s = .raised (raise .stackUnderflow 0 s) := by
  simp [pop, h]

/-- A skip whose condition does not hold (R148). -/
theorem skipIf_false : skipIf false s = .done () s := rfl

/-- A taken skip (R148). -/
theorem skipIf_true : skipIf true s = advancePC s := rfl

/-- A conditional skip changes only the program counter, or what a raise changes. -/
theorem skipIf_cases (c : Bool) :
    (c = false ∧ skipIf c s = .done () s) ∨
    (c = true ∧ s.pc.toNat + 2 ≤ s.params.pcAdvanceLimit.value ∧
      skipIf c s = .done () (s.setPc (BitVec.ofNat 16 (s.pc.toNat + 2)))) ∨
    (c = true ∧ s.params.pcAdvanceLimit.value < s.pc.toNat + 2 ∧
      skipIf c s = .raised (raise .outOfBounds (s.pc.toNat + 2) s)) := by
  cases c with
  | false => exact .inl ⟨rfl, rfl⟩
  | true =>
    by_cases h : s.pc.toNat + 2 ≤ s.params.pcAdvanceLimit.value
    · exact .inr (.inl ⟨rfl, h, advancePC_done h⟩)
    · exact .inr (.inr ⟨rfl, by omega, advancePC_raised (by omega)⟩)

/-- Fetch of two bytes that exist (R121). -/
theorem fetch_done (h : s.pc.toNat + 1 < 4096) :
    fetch s = .done (wordOfBytes (Memory.read s.mem s.pc.toNat) (Memory.read s.mem (s.pc.toNat + 1))) s := by
  rw [fetch, memRead_done (by omega)]
  simp only [Flow.bind_done]
  rw [memRead_done h]
  rfl

/-- Fetch at 4095 or above (R121): the fault of the first byte that does not exist, nothing else changed. -/
theorem fetch_raised (h : 4095 ≤ s.pc.toNat) : fetch s = .raised (raise .outOfBounds (max s.pc.toNat 4096) s) := by
  rw [fetch]
  by_cases h2 : s.pc.toNat < 4096
  · rw [memRead_done h2]
    simp only [Flow.bind_done]
    rw [memRead_raised (by omega), show max s.pc.toNat 4096 = s.pc.toNat + 1 by omega]; rfl
  · rw [memRead_raised (by omega), show max s.pc.toNat 4096 = s.pc.toNat by omega]; rfl

/-- Fetch and advance (R121, R122): both go through where `pc + 2` is within the limit; otherwise the fault of the
address that is one too many, with nothing else changed. -/
theorem fetchAdvance_cases :
    (s.pc.toNat + 2 ≤ s.params.pcAdvanceLimit.value ∧ fetchAdvance s =
      .done (wordOfBytes (Memory.read s.mem s.pc.toNat) (Memory.read s.mem (s.pc.toNat + 1)))
        (s.setPc (BitVec.ofNat 16 (s.pc.toNat + 2)))) ∨
    (s.params.pcAdvanceLimit.value < s.pc.toNat + 2 ∧
      fetchAdvance s = .raised (raise .outOfBounds (max s.pc.toNat 4096) s)) := by
  have hl := s.params.pcAdvanceLimit.value_bounds
  by_cases hf : s.pc.toNat + 1 < 4096
  · rw [fetchAdvance, fetch_done hf]
    simp only [Flow.bind_done]
    by_cases h : s.pc.toNat + 2 ≤ s.params.pcAdvanceLimit.value
    · exact .inl ⟨h, by rw [advancePC_done h]; rfl⟩
    · refine .inr ⟨by omega, ?_⟩
      rw [advancePC_raised (by omega), show max s.pc.toNat 4096 = s.pc.toNat + 2 by omega]; rfl
  · refine .inr ⟨by omega, ?_⟩
    rw [fetchAdvance, fetch_raised (by omega)]; rfl

end Sys2Proof.Machine
end

