-- ==== Sys2Proof/Laws/Flags.lean ====
section
/-! SUPPORT. What the flag computations and the flag-setting write do. -/

namespace Sys2Proof.Machine

variable (s : State)

theorem flagByte_true : flagByte true = 1 := rfl

theorem flagByte_false : flagByte false = 0 := rfl

/-- A flag is 1 exactly when its condition holds (R35). -/
theorem flagByte_eq_one (c : Bool) : flagByte c = 1 ↔ c = true := by cases c <;> decide

/-- The registers after a flag and a result are written (R167): the last of the two writes survives in register
15. -/
theorem State.writeFlagged_reg (x y : Nibble) (r c : Byte) :
    (s.writeFlagged x r c).reg y =
      if s.params.vfWriteOrder = .flagThenResult then (if y = x then r else if y = 15 then c else s.reg y)
      else (if y = 15 then c else if y = x then r else s.reg y) := by
  unfold State.writeFlagged
  split <;> simp_all [State.reg_setReg]

/-- Only general registers change (R126). -/
theorem State.writeFlagged_frame (x : Nibble) (r c : Byte) :
    s.writeFlagged x r c = { s with v := (s.writeFlagged x r c).v } := by
  unfold State.writeFlagged
  split <;> rfl

/-- The registers after a flag-setting operation (R167). -/
theorem flagOp_reg (f : Byte → Byte → Byte × Bool) (x y z : Nibble) :
    (flagOp f x y s).reg z =
      if s.params.vfWriteOrder = .flagThenResult then
        (if z = x then (f (s.reg x) (s.reg y)).1
        else if z = 15 then flagByte (f (s.reg x) (s.reg y)).2 else s.reg z)
      else
        (if z = 15 then flagByte (f (s.reg x) (s.reg y)).2
        else if z = x then (f (s.reg x) (s.reg y)).1 else s.reg z) :=
  State.writeFlagged_reg s x z _ _

/-- Only general registers change (R126). -/
theorem flagOp_frame (f : Byte → Byte → Byte × Bool) (x y : Nibble) :
    flagOp f x y s = { s with v := (flagOp f x y s).v } :=
  State.writeFlagged_frame s x _ _

/-- The shifts read `V[x]` where `SHIFT_SOURCE` is `Vx`, the spec's value (R170). -/
@[simp] theorem shiftOperand_vx (a b : Byte) : shiftOperand .vx a b = a := rfl

/-- The shifts read `V[y]` where it is `Vy` (R170). -/
@[simp] theorem shiftOperand_vy (a b : Byte) : shiftOperand .vy a b = b := rfl

/-- A row collides where a set sprite pixel lies over a set display pixel (R221). -/
theorem rowCollides_iff (ox oy : Nat) (row : Byte) :
    rowCollides s ox oy row = true ↔
      ∃ c, c < 8 ∧ row.getLsbD (7 - c) = true ∧ s.dispPixel (ox + c) oy = true := by
  simp [rowCollides, List.any_eq_true]

/-- A sprite collides where some row does (R221). -/
theorem collision_iff (ox oy : Nat) (rows : List Byte) :
    collision s ox oy rows = true ↔
      ∃ r c, ∃ h : r < rows.length, c < 8 ∧ (rows[r]).getLsbD (7 - c) = true ∧
        s.dispPixel (ox + c) (oy + r) = true := by
  induction rows generalizing oy with
  | nil => simp [collision]
  | cons row rows ih =>
    simp only [collision, Bool.or_eq_true, rowCollides_iff, ih]
    constructor
    · rintro (⟨c, h⟩ | ⟨r, c, hr, h1, h2, h3⟩)
      · exact ⟨0, c, by simp, h⟩
      · exact ⟨r + 1, c, by simpa using hr, h1, by simpa using h2, by
          rw [show oy + (r + 1) = oy + 1 + r by omega]; exact h3⟩
    · rintro ⟨r, c, hr, h1, h2, h3⟩
      cases r with
      | zero => exact .inl ⟨c, h1, h2, h3⟩
      | succ r =>
        exact .inr ⟨r, c, by simpa using hr, h1, by simpa using h2, by
          rw [show oy + 1 + r = oy + (r + 1) by omega]; exact h3⟩

end Sys2Proof.Machine
end

