-- ==== Sys2Proof/Laws/PerInstr.lean ====
section
/-! SUPPORT. Statements made for each instruction: its encoding selects its row of spec/opcode_table.json. -/

namespace Sys2Proof.Laws.RowMatch

open Sys2Proof

/-- The word of a well-formed instruction has the fixed bits of its row of the opcode map (spec/30_encoding.md R96), and
an `Unknown` has those of no defined row (R98). -/
def Statement (i : Instr) : Prop :=
  i.wellFormed = true → i.row.selects (encode i) = true ∧
    match i with
    | .unknown w => definedRows.all (fun r => !r.selects w) = true
    | _ => i.row ∈ definedRows

theorem cls : Statement .cls := fun _ => ⟨by decide, by decide⟩

theorem ret : Statement .ret := fun _ => ⟨by decide, by decide⟩

theorem jp (nnn : Addr12) : Statement (.jp nnn) := by
  refine fun _ => ⟨?_, show Row.mk (encodeXyn 15 0 0 0) (encodeXyn 1 0 0 0) ∈ definedRows by decide⟩
  show (Row.mk (encodeXyn 15 0 0 0) (encodeXyn 1 0 0 0)).selects _ = true
  simp [selects_encodeXyn, encode]

theorem call (nnn : Addr12) : Statement (.call nnn) := by
  refine fun _ => ⟨?_, show Row.mk (encodeXyn 15 0 0 0) (encodeXyn 2 0 0 0) ∈ definedRows by decide⟩
  show (Row.mk (encodeXyn 15 0 0 0) (encodeXyn 2 0 0 0)).selects _ = true
  simp [selects_encodeXyn, encode]

theorem seImm (x : Nibble) (kk : Byte) : Statement (.seImm x kk) := by
  refine fun _ => ⟨?_, show Row.mk (encodeXyn 15 0 0 0) (encodeXyn 3 0 0 0) ∈ definedRows by decide⟩
  show (Row.mk (encodeXyn 15 0 0 0) (encodeXyn 3 0 0 0)).selects _ = true
  simp [selects_encodeXyn, encode]

theorem sneImm (x : Nibble) (kk : Byte) : Statement (.sneImm x kk) := by
  refine fun _ => ⟨?_, show Row.mk (encodeXyn 15 0 0 0) (encodeXyn 4 0 0 0) ∈ definedRows by decide⟩
  show (Row.mk (encodeXyn 15 0 0 0) (encodeXyn 4 0 0 0)).selects _ = true
  simp [selects_encodeXyn, encode]

theorem seReg (x y : Nibble) : Statement (.seReg x y) := by
  refine fun _ => ⟨?_, show Row.mk (encodeXyn 15 0 0 15) (encodeXyn 5 0 0 0) ∈ definedRows by decide⟩
  show (Row.mk (encodeXyn 15 0 0 15) (encodeXyn 5 0 0 0)).selects _ = true
  simp [selects_encodeXyn, encode]

theorem ldImm (x : Nibble) (kk : Byte) : Statement (.ldImm x kk) := by
  refine fun _ => ⟨?_, show Row.mk (encodeXyn 15 0 0 0) (encodeXyn 6 0 0 0) ∈ definedRows by decide⟩
  show (Row.mk (encodeXyn 15 0 0 0) (encodeXyn 6 0 0 0)).selects _ = true
  simp [selects_encodeXyn, encode]

theorem addImm (x : Nibble) (kk : Byte) : Statement (.addImm x kk) := by
  refine fun _ => ⟨?_, show Row.mk (encodeXyn 15 0 0 0) (encodeXyn 7 0 0 0) ∈ definedRows by decide⟩
  show (Row.mk (encodeXyn 15 0 0 0) (encodeXyn 7 0 0 0)).selects _ = true
  simp [selects_encodeXyn, encode]

theorem ldReg (x y : Nibble) : Statement (.ldReg x y) := by
  refine fun _ => ⟨?_, show Row.mk (encodeXyn 15 0 0 15) (encodeXyn 8 0 0 0) ∈ definedRows by decide⟩
  show (Row.mk (encodeXyn 15 0 0 15) (encodeXyn 8 0 0 0)).selects _ = true
  simp [selects_encodeXyn, encode]

theorem orReg (x y : Nibble) : Statement (.orReg x y) := by
  refine fun _ => ⟨?_, show Row.mk (encodeXyn 15 0 0 15) (encodeXyn 8 0 0 1) ∈ definedRows by decide⟩
  show (Row.mk (encodeXyn 15 0 0 15) (encodeXyn 8 0 0 1)).selects _ = true
  simp [selects_encodeXyn, encode]

theorem andReg (x y : Nibble) : Statement (.andReg x y) := by
  refine fun _ => ⟨?_, show Row.mk (encodeXyn 15 0 0 15) (encodeXyn 8 0 0 2) ∈ definedRows by decide⟩
  show (Row.mk (encodeXyn 15 0 0 15) (encodeXyn 8 0 0 2)).selects _ = true
  simp [selects_encodeXyn, encode]

theorem xorReg (x y : Nibble) : Statement (.xorReg x y) := by
  refine fun _ => ⟨?_, show Row.mk (encodeXyn 15 0 0 15) (encodeXyn 8 0 0 3) ∈ definedRows by decide⟩
  show (Row.mk (encodeXyn 15 0 0 15) (encodeXyn 8 0 0 3)).selects _ = true
  simp [selects_encodeXyn, encode]

theorem addReg (x y : Nibble) : Statement (.addReg x y) := by
  refine fun _ => ⟨?_, show Row.mk (encodeXyn 15 0 0 15) (encodeXyn 8 0 0 4) ∈ definedRows by decide⟩
  show (Row.mk (encodeXyn 15 0 0 15) (encodeXyn 8 0 0 4)).selects _ = true
  simp [selects_encodeXyn, encode]

theorem sub (x y : Nibble) : Statement (.sub x y) := by
  refine fun _ => ⟨?_, show Row.mk (encodeXyn 15 0 0 15) (encodeXyn 8 0 0 5) ∈ definedRows by decide⟩
  show (Row.mk (encodeXyn 15 0 0 15) (encodeXyn 8 0 0 5)).selects _ = true
  simp [selects_encodeXyn, encode]

theorem shr (x y : Nibble) : Statement (.shr x y) := by
  refine fun _ => ⟨?_, show Row.mk (encodeXyn 15 0 0 15) (encodeXyn 8 0 0 6) ∈ definedRows by decide⟩
  show (Row.mk (encodeXyn 15 0 0 15) (encodeXyn 8 0 0 6)).selects _ = true
  simp [selects_encodeXyn, encode]

theorem subn (x y : Nibble) : Statement (.subn x y) := by
  refine fun _ => ⟨?_, show Row.mk (encodeXyn 15 0 0 15) (encodeXyn 8 0 0 7) ∈ definedRows by decide⟩
  show (Row.mk (encodeXyn 15 0 0 15) (encodeXyn 8 0 0 7)).selects _ = true
  simp [selects_encodeXyn, encode]

theorem shl (x y : Nibble) : Statement (.shl x y) := by
  refine fun _ => ⟨?_, show Row.mk (encodeXyn 15 0 0 15) (encodeXyn 8 0 0 14) ∈ definedRows by decide⟩
  show (Row.mk (encodeXyn 15 0 0 15) (encodeXyn 8 0 0 14)).selects _ = true
  simp [selects_encodeXyn, encode]

theorem sneReg (x y : Nibble) : Statement (.sneReg x y) := by
  refine fun _ => ⟨?_, show Row.mk (encodeXyn 15 0 0 15) (encodeXyn 9 0 0 0) ∈ definedRows by decide⟩
  show (Row.mk (encodeXyn 15 0 0 15) (encodeXyn 9 0 0 0)).selects _ = true
  simp [selects_encodeXyn, encode]

theorem ldI (nnn : Addr12) : Statement (.ldI nnn) := by
  refine fun _ => ⟨?_, show Row.mk (encodeXyn 15 0 0 0) (encodeXyn 10 0 0 0) ∈ definedRows by decide⟩
  show (Row.mk (encodeXyn 15 0 0 0) (encodeXyn 10 0 0 0)).selects _ = true
  simp [selects_encodeXyn, encode]

theorem jpV0 (nnn : Addr12) : Statement (.jpV0 nnn) := by
  refine fun _ => ⟨?_, show Row.mk (encodeXyn 15 0 0 0) (encodeXyn 11 0 0 0) ∈ definedRows by decide⟩
  show (Row.mk (encodeXyn 15 0 0 0) (encodeXyn 11 0 0 0)).selects _ = true
  simp [selects_encodeXyn, encode]

theorem rnd (x : Nibble) (kk : Byte) : Statement (.rnd x kk) := by
  refine fun _ => ⟨?_, show Row.mk (encodeXyn 15 0 0 0) (encodeXyn 12 0 0 0) ∈ definedRows by decide⟩
  show (Row.mk (encodeXyn 15 0 0 0) (encodeXyn 12 0 0 0)).selects _ = true
  simp [selects_encodeXyn, encode]

theorem drw (x y n : Nibble) : Statement (.drw x y n) := by
  refine fun _ => ⟨?_, show Row.mk (encodeXyn 15 0 0 0) (encodeXyn 13 0 0 0) ∈ definedRows by decide⟩
  show (Row.mk (encodeXyn 15 0 0 0) (encodeXyn 13 0 0 0)).selects _ = true
  simp [selects_encodeXyn, encode]

theorem skp (x : Nibble) : Statement (.skp x) := by
  refine fun _ => ⟨?_, show Row.mk (encodeXyn 15 0 15 15) (encodeXyn 14 0 9 14) ∈ definedRows by decide⟩
  show (Row.mk (encodeXyn 15 0 15 15) (encodeXyn 14 0 9 14)).selects _ = true
  simp [selects_encodeXyn, encode]

theorem sknp (x : Nibble) : Statement (.sknp x) := by
  refine fun _ => ⟨?_, show Row.mk (encodeXyn 15 0 15 15) (encodeXyn 14 0 10 1) ∈ definedRows by decide⟩
  show (Row.mk (encodeXyn 15 0 15 15) (encodeXyn 14 0 10 1)).selects _ = true
  simp [selects_encodeXyn, encode]

theorem ldVxDt (x : Nibble) : Statement (.ldVxDt x) := by
  refine fun _ => ⟨?_, show Row.mk (encodeXyn 15 0 15 15) (encodeXyn 15 0 0 7) ∈ definedRows by decide⟩
  show (Row.mk (encodeXyn 15 0 15 15) (encodeXyn 15 0 0 7)).selects _ = true
  simp [selects_encodeXyn, encode]

theorem ldVxK (x : Nibble) : Statement (.ldVxK x) := by
  refine fun _ => ⟨?_, show Row.mk (encodeXyn 15 0 15 15) (encodeXyn 15 0 0 10) ∈ definedRows by decide⟩
  show (Row.mk (encodeXyn 15 0 15 15) (encodeXyn 15 0 0 10)).selects _ = true
  simp [selects_encodeXyn, encode]

theorem ldDtVx (x : Nibble) : Statement (.ldDtVx x) := by
  refine fun _ => ⟨?_, show Row.mk (encodeXyn 15 0 15 15) (encodeXyn 15 0 1 5) ∈ definedRows by decide⟩
  show (Row.mk (encodeXyn 15 0 15 15) (encodeXyn 15 0 1 5)).selects _ = true
  simp [selects_encodeXyn, encode]

theorem ldStVx (x : Nibble) : Statement (.ldStVx x) := by
  refine fun _ => ⟨?_, show Row.mk (encodeXyn 15 0 15 15) (encodeXyn 15 0 1 8) ∈ definedRows by decide⟩
  show (Row.mk (encodeXyn 15 0 15 15) (encodeXyn 15 0 1 8)).selects _ = true
  simp [selects_encodeXyn, encode]

theorem addI (x : Nibble) : Statement (.addI x) := by
  refine fun _ => ⟨?_, show Row.mk (encodeXyn 15 0 15 15) (encodeXyn 15 0 1 14) ∈ definedRows by decide⟩
  show (Row.mk (encodeXyn 15 0 15 15) (encodeXyn 15 0 1 14)).selects _ = true
  simp [selects_encodeXyn, encode]

theorem ldF (x : Nibble) : Statement (.ldF x) := by
  refine fun _ => ⟨?_, show Row.mk (encodeXyn 15 0 15 15) (encodeXyn 15 0 2 9) ∈ definedRows by decide⟩
  show (Row.mk (encodeXyn 15 0 15 15) (encodeXyn 15 0 2 9)).selects _ = true
  simp [selects_encodeXyn, encode]

theorem ldB (x : Nibble) : Statement (.ldB x) := by
  refine fun _ => ⟨?_, show Row.mk (encodeXyn 15 0 15 15) (encodeXyn 15 0 3 3) ∈ definedRows by decide⟩
  show (Row.mk (encodeXyn 15 0 15 15) (encodeXyn 15 0 3 3)).selects _ = true
  simp [selects_encodeXyn, encode]

theorem ldMemVx (x : Nibble) : Statement (.ldMemVx x) := by
  refine fun _ => ⟨?_, show Row.mk (encodeXyn 15 0 15 15) (encodeXyn 15 0 5 5) ∈ definedRows by decide⟩
  show (Row.mk (encodeXyn 15 0 15 15) (encodeXyn 15 0 5 5)).selects _ = true
  simp [selects_encodeXyn, encode]

theorem ldVxMem (x : Nibble) : Statement (.ldVxMem x) := by
  refine fun _ => ⟨?_, show Row.mk (encodeXyn 15 0 15 15) (encodeXyn 15 0 6 5) ∈ definedRows by decide⟩
  show (Row.mk (encodeXyn 15 0 15 15) (encodeXyn 15 0 6 5)).selects _ = true
  simp [selects_encodeXyn, encode]

theorem unknown (word : Word) : Statement (.unknown word) := by
  intro h
  refine ⟨by simp [Row.selects, Instr.row], ?_⟩
  simpa [Instr.wellFormed, assigned, List.any_eq_false, List.all_eq_true] using h

end Sys2Proof.Laws.RowMatch
end

