-- ==== Sys2Proof/Tests/Slice0.lean ====
section
/-! SUPPORT. The model's own tests. Every expected result is one of spec/: the vectors of 95_test_vectors.md (named by
their ids), the decoder vectors of its section 2.10, the words of 30_encoding.md R102. After them, one witness for the
hypotheses of each statement that has any. -/

namespace Sys2Proof.Tests

open Sys2Proof Sys2Proof.Machine

/-! ### Well-formedness -/

/-- The one check refuses an `Unknown` that carries a defined word (R98). -/
theorem test_unknown_of_assigned_is_ill_formed : (Instr.unknown 0x6005).wellFormed = false := by decide

/-- `5121` is unassigned (R98, vector S2). -/
theorem test_unknown_of_unassigned_is_well_formed : (Instr.unknown 0x5121).wellFormed = true := by decide

/-! ### Decoding: each constructor from a word written out from its pattern (R96, 95_test_vectors.md 2.10) -/

theorem test_decode_cls : decodeWord 0b0000000011100000 = .cls := by decide
theorem test_decode_ret : decodeWord 0b0000000011101110 = .ret := by decide
theorem test_decode_jp : decodeWord 0b0001101010111100 = .jp 0xABC := by decide
theorem test_decode_call : decodeWord 0b0010101010111100 = .call 0xABC := by decide
theorem test_decode_seImm : decodeWord 0b0011101001111111 = .seImm 10 0x7F := by decide
theorem test_decode_sneImm : decodeWord 0b0100101001111111 = .sneImm 10 0x7F := by decide
theorem test_decode_seReg : decodeWord 0b0101101010110000 = .seReg 10 11 := by decide
theorem test_decode_ldImm : decodeWord 0b0110101001111111 = .ldImm 10 0x7F := by decide
theorem test_decode_addImm : decodeWord 0b0111101001111111 = .addImm 10 0x7F := by decide
theorem test_decode_ldReg : decodeWord 0b1000101010110000 = .ldReg 10 11 := by decide
theorem test_decode_orReg : decodeWord 0b1000101010110001 = .orReg 10 11 := by decide
theorem test_decode_andReg : decodeWord 0b1000101010110010 = .andReg 10 11 := by decide
theorem test_decode_xorReg : decodeWord 0b1000101010110011 = .xorReg 10 11 := by decide
theorem test_decode_addReg : decodeWord 0b1000101010110100 = .addReg 10 11 := by decide
theorem test_decode_sub : decodeWord 0b1000101010110101 = .sub 10 11 := by decide
theorem test_decode_shr : decodeWord 0b1000101010110110 = .shr 10 11 := by decide
theorem test_decode_subn : decodeWord 0b1000101010110111 = .subn 10 11 := by decide
theorem test_decode_shl : decodeWord 0b1000101010111110 = .shl 10 11 := by decide
theorem test_decode_sneReg : decodeWord 0b1001101010110000 = .sneReg 10 11 := by decide
theorem test_decode_ldI : decodeWord 0b1010101010111100 = .ldI 0xABC := by decide
theorem test_decode_jpV0 : decodeWord 0b1011101010111100 = .jpV0 0xABC := by decide
theorem test_decode_rnd : decodeWord 0b1100101001111111 = .rnd 10 0x7F := by decide
theorem test_decode_drw : decodeWord 0b1101101010110101 = .drw 10 11 5 := by decide
theorem test_decode_skp : decodeWord 0b1110101010011110 = .skp 10 := by decide
theorem test_decode_sknp : decodeWord 0b1110101010100001 = .sknp 10 := by decide
theorem test_decode_ldVxDt : decodeWord 0b1111101000000111 = .ldVxDt 10 := by decide
theorem test_decode_ldVxK : decodeWord 0b1111101000001010 = .ldVxK 10 := by decide
theorem test_decode_ldDtVx : decodeWord 0b1111101000010101 = .ldDtVx 10 := by decide
theorem test_decode_ldStVx : decodeWord 0b1111101000011000 = .ldStVx 10 := by decide
theorem test_decode_addI : decodeWord 0b1111101000011110 = .addI 10 := by decide
theorem test_decode_ldF : decodeWord 0b1111101000101001 = .ldF 10 := by decide
theorem test_decode_ldB : decodeWord 0b1111101000110011 = .ldB 10 := by decide
theorem test_decode_ldMemVx : decodeWord 0b1111101001010101 = .ldMemVx 10 := by decide
theorem test_decode_ldVxMem : decodeWord 0b1111101001100101 = .ldVxMem 10 := by decide
theorem test_decode_unknown : decodeWord 0b0101101010110001 = .unknown 0x5AB1 := by decide

/-- Unassigned words beside assigned ones (95_test_vectors.md 2.10). -/
theorem test_decode_near_misses :
    decodeWord 0x00E1 = .unknown 0x00E1 ∧ decodeWord 0x0000 = .unknown 0x0000 ∧ decodeWord 0x01E0 = .unknown 0x01E0 ∧
    decodeWord 0x8AB8 = .unknown 0x8AB8 ∧ decodeWord 0x8ABF = .unknown 0x8ABF ∧ decodeWord 0x9ABF = .unknown 0x9ABF ∧
    decodeWord 0xEA9F = .unknown 0xEA9F ∧ decodeWord 0xFA75 = .unknown 0xFA75 := by decide

/-- The encodings R102 lists. -/
theorem test_encode_R102 :
    encode (.ldImm 0 0x05) = 0x6005 ∧ encode (.addImm 0 0x03) = 0x7003 ∧ encode (.jp 0x200) = 0x1200 ∧
    encode (.call 0x300) = 0x2300 ∧ encode .ret = 0x00EE ∧ encode (.addReg 3 10) = 0x83A4 ∧
    encode (.drw 1 2 5) = 0xD125 ∧ encode (.ldMemVx 15) = 0xFF55 ∧ encode (.sknp 7) = 0xE7A1 := by decide

/-- The bytes of `6005` are 60 05, in that order (R66). -/
theorem test_bytes_of_word : bytesOfWord 0x6005 = [0x60, 0x05] := by decide

/-- A lone byte is no instruction (R90). -/
theorem test_decode_too_short : decode [0x60] = .error .tooShort := rfl

/-- The table's numbering puts the word's low bit first. -/
theorem test_decode_table_word : decodeTableWord 16 0x83A4 = some (.addReg 3 10) := by decide

/-! ### Instructions, each by one step (95_test_vectors.md part 2) -/

/-- The start state of the vectors: a word at the program counter of a running machine, and what differs. -/
def begin (word : Word) (f : State → State) : State := State.withFetchWord (f State.reset) 16 word.toNat

/-- The step's inputs instead of quiet ones. -/
def withInputs (i : Inputs) (s : State) : State := { s with schedule := [⟨.step, i⟩] }

/-- What is seen of the next state. -/
def sees {α : Type} (s : State) (f : State → α) : Option α :=
  match step s with
  | .next t => some (f t)
  | .fault _ => none
  | .refused _ => none

/-- A running machine at an `LD V0, 5`. -/
def running : State := begin 0x6005 id

/-- Bytes placed in memory before the step. -/
def bytesAt (a : Nat) (bs : List Byte) (s : State) : State := { s with mem := Memory.setBytes s.mem a bs }

/-- Registers set before the step. -/
def regs (l : List (Nibble × Byte)) (s : State) : State := l.foldl (fun t p => t.setReg p.1 p.2) s

theorem test_cls_W1 : sees (begin 0x00E0 (regs [(15, 1)])) (fun t => (t.vf, t.pc, t.events)) = some (1, 0x202, [.clearRequest]) := by decide

theorem test_ret_J1 : sees (begin 0x00EE (fun s => { s with sp := 1, stack := s.stack.set 0 0x202 })) (fun t => (t.pc, t.sp)) = some (0x202, 0) := by decide

theorem test_ret_J2 : sees (begin 0x00EE (id)) (fun t => (t.pc, t.sp, t.run, t.fault)) = some (0x202, 0, .halted, ⟨.stackUnderflow, 0⟩) := by decide

theorem test_jp_J5 : sees (begin 0x1FFF (id)) (fun t => t.pc) = some 0xFFF := by decide

theorem test_call_J7 : sees (begin 0x2300 (id)) (fun t => (t.pc, t.sp, t.stack[0])) = some (0x300, 1, 0x202) := by decide

theorem test_call_J9 : sees (begin 0x2300 (fun s => { s with sp := 16 })) (fun t => (t.pc, t.sp, t.run, t.events)) = some (0x202, 16, .halted, [.faultReport .stackOverflow 0]) := by decide

theorem test_jpV0_J12 : sees (begin 0xBFFF (regs [(0, 0xFF)])) (fun t => t.pc) = some 0x10FE := by decide

theorem test_seImm_J14 : sees (begin 0x3005 (regs [(0, 5)])) (fun t => t.pc) = some 0x204 := by decide

theorem test_seImm_J18 : sees (begin 0x3000 (fun s => s.setPc 4094)) (fun t => (t.pc, t.run, t.fault)) = some (4096, .halted, ⟨.outOfBounds, 4098⟩) := by decide

theorem test_sneImm_J22 : sees (begin 0x4005 (regs [(0, 6)])) (fun t => t.pc) = some 0x204 := by decide

theorem test_seReg_J24 : sees (begin 0x5120 (regs [(1, 0x7F), (2, 0x7E)])) (fun t => t.pc) = some 0x202 := by decide

theorem test_sneReg_J26 : sees (begin 0x9120 (regs [(1, 1), (2, 2)])) (fun t => t.pc) = some 0x204 := by decide

theorem test_ldImm_A1 : sees (begin 0x6FAB (id)) (fun t => (t.vf, t.pc)) = some (0xAB, 0x202) := by decide

theorem test_addImm_A2 : sees (begin 0x7001 (regs [(0, 0xFF), (15, 7)])) (fun t => (t.reg 0, t.vf)) = some (0, 7) := by decide

theorem test_ldReg_A5 : sees (begin 0x8120 (regs [(2, 0xAB)])) (fun t => (t.reg 1, t.reg 2)) = some (0xAB, 0xAB) := by decide

theorem test_orReg_A8 : sees (begin 0x8121 (regs [(1, 0xF0), (2, 0x0F), (15, 1)])) (fun t => (t.reg 1, t.vf)) = some (0xFF, 1) := by decide

theorem test_andReg_A9 : sees (begin 0x8122 (regs [(1, 0xF0), (2, 0x3C), (15, 1)])) (fun t => (t.reg 1, t.vf)) = some (0x30, 1) := by decide

theorem test_xorReg_A10 : sees (begin 0x8123 (regs [(1, 0xF0), (2, 0x3C), (15, 1)])) (fun t => (t.reg 1, t.vf)) = some (0xCC, 1) := by decide

theorem test_addReg_B5 : sees (begin 0x8114 (regs [(1, 0x80)])) (fun t => (t.reg 1, t.vf)) = some (0, 1) := by decide

theorem test_addReg_B11 : sees (begin 0x8FF4 (regs [(15, 0x81)])) (fun t => t.vf) = some 0x02 := by decide

theorem test_sub_B14 : sees (begin 0x8125 (regs [(1, 7), (2, 7)])) (fun t => (t.reg 1, t.vf)) = some (0, 1) := by decide

theorem test_sub_B12 : sees (begin 0x8125 (regs [(1, 1), (2, 2)])) (fun t => (t.reg 1, t.vf)) = some (0xFF, 0) := by decide

theorem test_shr_B29 : sees (begin 0x8126 (regs [(1, 4), (2, 0xFF)])) (fun t => (t.reg 1, t.reg 2, t.vf)) = some (2, 0xFF, 0) := by decide

theorem test_shr_B28 : sees (begin 0x8106 (regs [(1, 0xFF)])) (fun t => (t.reg 1, t.vf)) = some (0x7F, 1) := by decide

theorem test_subn_B21 : sees (begin 0x8127 (regs [(1, 3), (2, 1)])) (fun t => (t.reg 1, t.vf)) = some (0xFE, 0) := by decide

theorem test_shl_B32 : sees (begin 0x810E (regs [(1, 0x81)])) (fun t => (t.reg 1, t.vf)) = some (2, 1) := by decide

theorem test_shl_B38 : sees (begin 0x8F0E (regs [(15, 0x41)])) (fun t => t.vf) = some 0x82 := by decide

theorem test_ldI_M2 : sees (begin 0xAFFF (id)) (fun t => t.i) = some 0xFFF := by decide

theorem test_addI_M5 : sees (begin 0xF11E (fun s => (regs [(1, 1)] s).setI 0xFFF)) (fun t => (t.i, t.vf)) = some (0x1000, 0) := by decide

theorem test_addI_M7 : sees (begin 0xF11E (fun s => (regs [(1, 0xFF)] s).setI 0xFF01)) (fun t => t.i) = some 0 := by decide

theorem test_ldF_M9 : sees (begin 0xF029 (regs [(0, 0x0A)])) (fun t => t.i) = some 50 := by decide

theorem test_ldF_M12 : sees (begin 0xF029 (regs [(0, 0xFF)])) (fun t => t.i) = some 75 := by decide

theorem test_ldB_M14 : sees (begin 0xF033 (fun s => (regs [(0, 0x9C)] s).setI 0x300)) (fun t => (t.mem.read 0x300, t.mem.read 0x301, t.mem.read 0x302, t.mem.read 0x303)) = some (1, 5, 6, 0) := by decide

theorem test_ldB_M23 : sees (begin 0xF033 (fun s => (regs [(0, 0xFF)] s).setI 4094)) (fun t => (t.mem.read 4094, t.mem.read 4095, t.run, t.fault)) = some (2, 5, .halted, ⟨.outOfBounds, 4096⟩) := by decide

theorem test_ldMemVx_M28 : sees (begin 0xF355 (fun s => (regs [(0, 0x11), (1, 0x22), (2, 0x33), (3, 0x44), (4, 0x55)] s).setI 0x400)) (fun t => (t.mem.read 0x400, t.mem.read 0x403, t.mem.read 0x404, t.i)) = some (0x11, 0x44, 0, 0x400) := by decide

theorem test_ldMemVx_M32 : sees (begin 0xF255 (fun s => (regs [(0, 1), (1, 2), (2, 3)] s).setI 510)) (fun t => (t.mem.read 512, t.run, t.fault)) = some (0xF2, .halted, ⟨.protectedRegion, 510⟩) := by decide

theorem test_ldVxMem_M35 : sees (begin 0xF365 (fun s => (bytesAt 0x400 [0x11, 0x22, 0x33, 0x44, 0x55] s).setI 0x400)) (fun t => (t.reg 0, t.reg 3, t.reg 4, t.i)) = some (0x11, 0x44, 0, 0x400) := by decide

theorem test_ldVxMem_M37 : sees (begin 0xF165 (fun s => (regs [(1, 0x55)] (bytesAt 4095 [0x77] s)).setI 4095)) (fun t => (t.reg 0, t.reg 1, t.fault)) = some (0x77, 0x55, ⟨.outOfBounds, 4096⟩) := by decide

theorem test_ldVxDt_T1 : sees (begin 0xF307 (fun s => s.setDt 0x2A)) (fun t => (t.reg 3, t.dt)) = some (0x2A, 0x2A) := by decide

theorem test_ldDtVx_T3 : sees (begin 0xF215 (regs [(2, 0x3C)])) (fun t => (t.dt, t.events)) = some (0x3C, [.timerChange .dt 0x3C]) := by decide

theorem test_ldStVx_T5 : sees (begin 0xF118 (regs [(1, 5)])) (fun t => (t.st, t.tone, t.events)) = some (5, true, [.timerChange .st 5]) := by decide

theorem test_rnd_T9 :
    sees (withInputs ⟨0, 0, 0xA7, []⟩ (begin 0xC30F (id))) (fun t => t.reg 3) = some 7 := by decide

theorem test_drw_W4 :
    sees (withInputs ⟨0, 0, 0, [(69, 31)]⟩ (begin 0xD011 (fun s => (regs [(0, 62), (1, 31)] (bytesAt 0x300 [1] s)).setI 0x300))) (fun t => (t.vf, t.events)) = some (1, [.drawRequest 62 31 [1]]) := by decide

theorem test_drw_W7 :
    sees (withInputs ⟨0, 0, 0, []⟩ (begin 0xD012 (fun s => (regs [(15, 1)] (bytesAt 4095 [0xFF] s)).setI 4095))) (fun t => (t.vf, t.events)) = some (1, [.faultReport .outOfBounds 4096]) := by decide

theorem test_skp_K5 :
    sees (withInputs ⟨0x0400, 0, 0, []⟩ (begin 0xE19E (regs [(1, 0x1A)]))) (fun t => t.pc) = some 0x204 := by decide

theorem test_skp_K2 :
    sees (withInputs ⟨0xFFEF, 0, 0, []⟩ (begin 0xE19E (regs [(1, 4)]))) (fun t => t.pc) = some 0x202 := by decide

theorem test_sknp_K3 :
    sees (withInputs ⟨0x0010, 0, 0, []⟩ (begin 0xE1A1 (regs [(1, 4)]))) (fun t => t.pc) = some 0x202 := by decide

theorem test_sknp_K4 :
    sees (withInputs ⟨0, 0, 0, []⟩ (begin 0xE1A1 (regs [(1, 4)]))) (fun t => t.pc) = some 0x204 := by decide

theorem test_ldVxK_K9 :
    sees (withInputs ⟨0, 0, 0, []⟩ (begin 0xF50A (fun s => s.setPc 0x210))) (fun t => (t.pc, t.reg 5, t.events)) = some (0x210, 0, [.keyWaitRequest 5]) := by decide

theorem test_ldVxK_K11 :
    sees (withInputs ⟨0x0204, 9, 0, []⟩ (begin 0xF50A (fun s => s.setPc 0x210))) (fun t => (t.pc, t.reg 5, t.events)) = some (0x212, 9, []) := by decide

theorem test_unknown_S2 : sees (begin 0x5121 id) (fun t => (t.pc, t.events)) = some (0x202, [.diagnostic 0x5121]) := by decide

/-! ### The step, the tick and the host -/

/-- S10: a fetch at 4095. -/
theorem test_fetch_S10 : sees { State.reset with pc := 4095, run := .running, schedule := [quietStep] }
    (fun t => (t.pc, t.run, t.fault)) = some (4095, .halted, ⟨.outOfBounds, 4096⟩) := by decide

/-- S17: a step in `PoweredOff`. -/
theorem test_step_S17 : sees { begin 0x6105 id with run := .poweredOff } (fun t => (t.pc, t.reg 1, t.events)) =
    some (0x200, 0, []) := by decide

/-- K-T1: one tick. -/
theorem test_tick_KT1 : sees { State.reset with
      run := .running, dt := 3, st := 1, schedule := [⟨.tick, ⟨0, 0, 0, []⟩⟩] } (fun t => (t.dt, t.st, t.tone, t.pc)) =
    some (2, 0, false, 512) := by decide

/-- I3: an image is loaded. -/
theorem test_load_I3 : sees { State.reset with
      schedule := [⟨.loadImage [0x60, 0x05, 0x70, 0x03, 0x12, 0x00], ⟨0, 0, 0, []⟩⟩] }
    (fun t => (t.mem, t.run, t.pc)) =
    some ([(512, 0x60), (513, 0x05), (514, 0x70), (515, 0x03), (516, 0x12)], .running, 0x200) := by decide

/-- I7: no reloading while running. -/
theorem test_load_I7 : sees { State.reset with
      run := .running, schedule := [⟨.loadImage [0x12, 0x00], ⟨0, 0, 0, []⟩⟩] } (fun t => (t.mem, t.run)) =
    some ([], .running) := by decide

/-- I1: a halted machine is reset. -/
theorem test_reset_I1 : sees { State.reset with
      run := .halted, fault := ⟨.stackOverflow, 0⟩, v := State.reset.v.set 0 8, mem := [(0x300, 5)], dt := 9
      schedule := [⟨.reset, ⟨0, 0, 0, []⟩⟩] } (fun t => (t.run, t.fault.code, t.reg 0)) =
    some (.poweredOff, .none, 0) := by decide

/-- I1: `Reset` clears memory, for the spec's parameters. -/
theorem test_reset_memory_I1 (s : State) (h : s.params = Params.spec) : (hostReset s).mem = [] := by
  simp only [hostReset, h, State.resetWith_spec]; rfl

/-! ### The other values of the parameters (R8) -/

/-- The machine built with other parameters. -/
def built (p : Params) (s : State) : State := { s with params := p }

/-- B29 with `SHIFT_SOURCE = Vy`. -/
theorem test_shr_B29_vy : sees (begin 0x8126 (fun s => built { Params.spec with shiftSource := .vy }
      (regs [(1, 4), (2, 0xFF)] s))) (fun t => (t.reg 1, t.vf)) = some (0x7F, 1) := by decide

/-- R167: with `result_then_flag` the flag is left in `VF` when `x` is 15. -/
theorem test_addReg_flag_last : sees (begin 0x8FF4 (fun s => built { Params.spec with vfWriteOrder := .resultThenFlag }
      (regs [(15, 0x81)] s))) (fun t => t.vf) = some 1 := by decide

/-- R122: with `PC_ADVANCE_LIMIT` = 4095 the instruction at 4094 is fetched and not executed. -/
theorem test_advance_limit : sees (running.setPc 4094 |> built { Params.spec with pcAdvanceLimit := .lastAddress })
    (fun t => (t.pc, t.run, t.fault)) = some (4094, .halted, ⟨.outOfBounds, 4096⟩) := by decide

/-- R40, R54: another `RESERVED_FILL` is what `Reset` leaves at 80 and 511, and not at 512. -/
theorem test_reserved_fill (p : Params) (h : p.reservedFill = 0xAA) :
    ((State.resetWith p).mem.read 80, (State.resetWith p).mem.read 511, (State.resetWith p).mem.read 512) =
      (0xAA, 0xAA, 0) := by
  simp [State.resetWith, Memory.read_construct, Params.resetByte, Config.reservedEnd, h]

/-- R44: the numbers in `RUN`. -/
theorem test_run_numbers : [RunState.poweredOff, .running, .halted].map RunState.number = [0, 1, 2] := by decide

/-- R41: row 2 of glyph A, at address 52, in the spec's table. -/
theorem test_glyph_A : State.reset.mem.read 52 = 0xF0 ∧ State.reset.mem.read 79 = 0x80 := by decide

/-! ### Memory keeps its canonical form -/

/-- Storing the reset contents removes the entry. -/
theorem test_store_zero_removes : Memory.set [(0x300, 5)] 0x300 0 = [] := by decide

/-- A store between two entries stands between them. -/
theorem test_store_sorted : Memory.set [(0x300, 5), (0x302, 7)] 0x301 6 = [(0x300, 5), (0x301, 6), (0x302, 7)] := by
  decide

/-- An entry that equals the reset contents is not canonical. -/
theorem test_noncanonical : Memory.wf [(0x300, 0)] = false ∧ Memory.wf [(0x302, 1), (0x301, 1)] = false := by decide

/-! ### Witnesses: a concrete instance of the hypotheses of each statement that has any -/

/-- The machine with a given trigger coming. -/
def triggered (t : Trigger) (s : State) : State := { s with schedule := [⟨t, ⟨0, 0, 0, []⟩⟩] }

theorem witness_DecodeOfEncode :
      (Instr.drw 15 15 15).wellFormed = true ∧ (Instr.unknown 0xFFFF).wellFormed = true :=
    by decide

theorem witness_RowsDisjoint :
      (Instr.shl 0 0).row ∈ definedRows ∧ (Instr.shl 0 0).row.selects 0x8FFE = true :=
    by decide

theorem witness_BytesDecode :
      (Instr.ldVxMem 15).wellFormed = true :=
    by decide

theorem witness_MemReadRule_clauses :
      (4095 : Nat) < 4096 ∧ 4096 ≤ (4096 : Nat) ∧ memRead 4095 running = .done 0 running :=
    by decide

theorem witness_MemWriteRule :
      running.MemCanonical :=
    rfl

theorem witness_MemWriteRule_clauses :
      memWrite 511 1 running = .raised (raise .protectedRegion 511 running) ∧
      memWrite 4096 1 running = .raised (raise .outOfBounds 4096 running) ∧
      memWrite 512 1 running = .done () (running.setMem [(512, 1), (513, 5)]) :=
    by decide

theorem witness_ReadAfterWrite :
      running.MemCanonical ∧ 512 ≤ 4095 ∧ 4095 < 4096 := by
    unfold State.MemCanonical
    decide

theorem witness_MemoryExtensional :
      Memory.wf [(0, 0), (4095, 1)] = true :=
    by decide

theorem witness_StoredByteIsFetched :
      running.MemCanonical ∧ memWrite 513 7 running = .done () (running.setMem [(512, 0x60), (513, 7)]) ∧
      running.pc.toNat + 1 < 4096 := by
    unfold State.MemCanonical
    decide

theorem witness_NonStoringKeepsMemory :
      storesMemory (.ldImm 0 5) = false ∧ exec (.ldImm 0 5) running = .next (running.setReg 0 5) :=
    ⟨rfl, rfl⟩

theorem witness_ReservedRegionKept :
      running.MemCanonical ∧ exec (.ldImm 0 5) running = .next (running.setReg 0 5) :=
    ⟨rfl, rfl⟩

theorem witness_StepKeepsMemCanonical :
      running.MemCanonical ∧ ∃ t, step running = .next t :=
    ⟨rfl, _, rfl⟩

theorem witness_StepRunsDecoded :
      running.Executes ∧ decodeWord running.wordAtPc = .ldImm 0 5 := by
    unfold State.Executes
    decide

theorem witness_FetchFaults :
      (running.setPc 4095).run = .running ∧ (running.setPc 4095).stimulus.trigger = .step ∧
      (running.setPc 4095).params.pcAdvanceLimit.value < (running.setPc 4095).pc.toNat + 2 :=
    by decide

/-- The hypotheses also hold at 4094, under the other limit. -/
theorem witness_FetchFaults_advance :
    (built { Params.spec with pcAdvanceLimit := .lastAddress } (running.setPc 4094)).params.pcAdvanceLimit.value <
      (running.setPc 4094).pc.toNat + 2 ∧
    (built { Params.spec with pcAdvanceLimit := .lastAddress } (running.setPc 4094)).stimulus.trigger = .step := by
  decide

theorem witness_StepOutsideRunning :
      (triggered .step State.reset).run ≠ .running ∧ (triggered .step State.reset).stimulus.trigger = .step :=
    by decide

theorem witness_TickRule :
      (triggered .tick running).stimulus.trigger = .tick ∧ (triggered .tick running).run = .running ∧
      (triggered .tick State.reset).run ≠ .running :=
    by decide

theorem witness_StepKeepsTimers :
      running.stimulus.trigger = .step ∧ ∃ t, step running = .next t :=
    ⟨rfl, _, rfl⟩

theorem witness_ResetLeaves :
      (triggered .reset running).stimulus.trigger = .reset :=
    by decide

theorem witness_LoadImageRule :
      (triggered (.loadImage [1]) State.reset).MemCanonical ∧
      (triggered (.loadImage [1]) State.reset).stimulus.trigger = .loadImage [1] := by
    unfold State.MemCanonical
    decide

theorem witness_LoadImageRule_clauses :
      (triggered (.loadImage [1]) State.reset).run = .poweredOff ∧ [(1 : Byte)].length ≤ 3584 ∧
      3584 < (List.replicate 3585 (1 : Byte)).length ∧ (triggered (.loadImage [1]) running).run ≠ .poweredOff :=
    by rw [List.length_replicate]; decide

theorem witness_HaltedUntilReset :
      (triggered .tick { running with run := .halted }).run = .halted ∧
      (triggered .tick { running with run := .halted }).stimulus.trigger ≠ .reset :=
    by decide

theorem witness_AtMostOneEvent :
      ∃ t, step (begin 0x00E0 id) = .next t :=
    ⟨_, rfl⟩

theorem witness_FaultsAreTaken :
      exec .ret running = .next (raise .stackUnderflow 0 running) :=
    rfl

theorem witness_EndOfRunStays :
      (begin 0x1200 id).EndOfRun ∧ (begin 0x1200 id).stimulus.trigger = .step :=
    ⟨⟨by decide, by decide, 0x200, by decide, by decide⟩, by decide⟩

theorem witness_RetRule_clauses :
      0 < ({ running with sp := 1 } : State).sp.val ∧ running.sp.val = 0 :=
    by decide

theorem witness_CallRule_clauses :
      ({ running with sp := 15 } : State).sp.val < 16 ∧ ({ running with sp := 16 } : State).sp.val = 16 :=
    by decide

theorem witness_CallThenRet :
      running.sp.val < 16 :=
    by decide

theorem witness_RegisterSkips_clauses :
      running.reg 0 = 0 ∧ running.reg 0 ≠ 1 ∧ (running.setPc 4094).pc.toNat + 2 ≤ running.params.pcAdvanceLimit.value ∧
      running.params.pcAdvanceLimit.value < (running.setPc 4095).pc.toNat + 2 :=
    by decide

theorem witness_LdBRule_clauses :
      running.MemCanonical ∧ 512 ≤ (running.setI 4093).base ∧ (running.setI 4093).base + 3 ≤ 4096 ∧
      (running.setI 511).base < 512 ∧ 4096 < (running.setI 4094).base + 3 := by
    unfold State.MemCanonical
    decide

theorem witness_LdMemVxRule_clauses :
      running.MemCanonical ∧ 512 ≤ (running.setI 4080).base ∧ (running.setI 4080).base + (15 : Nibble).toNat < 4096 ∧
      (running.setI 511).base < 512 ∧ 4096 ≤ (running.setI 4081).base + (15 : Nibble).toNat := by
    unfold State.MemCanonical
    decide

theorem witness_LdVxMemRule_clauses :
      (running.setI 4080).base + (15 : Nibble).toNat < 4096 ∧
      4096 ≤ (running.setI 4081).base + (15 : Nibble).toNat :=
    by decide

theorem witness_BlockRoundTrip :
      running.MemCanonical ∧ 512 ≤ (running.setI 4080).base ∧ (running.setI 4080).base + (15 : Nibble).toNat < 4096 := by
    unfold State.MemCanonical
    decide

theorem witness_RndRule :
      exec (.rnd 3 0x0F) running = .next (running.setReg 3 0) ∧ (0x0F : Byte).getLsbD 4 = false :=
    ⟨rfl, rfl⟩

theorem witness_DrwRule :
      (0 : Nibble) = 0 ∧ (running.setI 4081).base + (15 : Nibble).toNat ≤ 4096 :=
    by decide

theorem witness_DrwFaults :
      (15 : Nibble) ≠ 0 ∧ 4096 < (running.setI 4082).base + (15 : Nibble).toNat :=
    by decide

theorem witness_KeySkips_clauses :
      (withInputs ⟨0x0001, 0, 0, []⟩ running).inputs.keys.getLsbD ((running.reg 0).toNat % 16) = true ∧
      running.inputs.keys.getLsbD ((running.reg 0).toNat % 16) = false :=
    by decide

theorem witness_WaitKeyRule_clauses :
      (withInputs ⟨0x8000, 0, 0, []⟩ running).inputs.keys ≠ 0 ∧ running.inputs.keys = 0 :=
    by decide

theorem witness_KeyWaitIsNoOp :
      (begin 0xF50A id).Executes ∧ decodeWord (begin 0xF50A id).wordAtPc = .ldVxK 5 ∧ (begin 0xF50A id).inputs.keys = 0 := by
    unfold State.Executes
    decide

theorem witness_StackOnlyByCallRet :
      usesStack (.jp 0x200) = false ∧ exec (.jp 0x200) running = .next running :=
    ⟨rfl, rfl⟩

theorem witness_IndexWriters :
      writesIndex (.jp 0x200) = false ∧ exec (.jp 0x200) running = .next running :=
    ⟨rfl, rfl⟩

theorem witness_RegisterWriters :
      writesDest (.addReg 1 2) 0 = false ∧ ¬ ((0 : Nibble) = 15 ∧ setsFlag (.addReg 1 2) = true) ∧
      exec (.addReg 1 2) running = .next ((running.setReg 15 0).setReg 1 0) :=
    ⟨rfl, by decide, rfl⟩

theorem witness_InputIndependence :
      readsInput (.addReg 1 2) = false :=
    by decide

/-- The flag-setting statements have both flags, with `x` other than 15. -/
theorem witness_AddRegRule_clauses :
    255 < ((running.setReg 0 255).reg 0).toNat + ((running.setReg 0 255).reg 0).toNat ∧
    ¬ 255 < (running.reg 0).toNat + (running.reg 1).toNat ∧ (0 : Nibble) ≠ 15 := by decide

/-- The state after reset meets the invariant, and a step leaves it. -/
theorem witness_StepKeepsInv : ∃ t, (triggered .step State.reset).Inv ∧
    step (triggered .step State.reset) = .next t :=
  ⟨_, ⟨rfl, fun _ _ => rfl, by unfold State.PcBounded; decide,
    fun _ _ h => absurd h (Nat.not_lt_zero _), by unfold State.FaultMatchesRun; decide,
    fun _ => (congrArg (fun r : State => { r with schedule := [⟨.step, ⟨0, 0, 0, []⟩⟩] }) State.resetWith_spec).symm⟩, rfl⟩

/-- Both sources of the shifts are met by a block. -/
theorem witness_ShiftRule :
    (running.params.shiftSource = .vx → running.reg 0 = running.reg 0) ∧
    (running.params.shiftSource = .vy → running.reg 0 = running.reg 1) ∧
    ((built { Params.spec with shiftSource := .vy } running).params.shiftSource = .vy →
      running.reg 1 = (built { Params.spec with shiftSource := .vy } running).reg 1) := by decide

/-- Both orders of the flag-setting write are met, and with them the clauses of `WritesFlagged` at `x` = 15. -/
theorem witness_WritesFlagged_orders :
    running.params.vfWriteOrder = .flagThenResult ∧
    (built { Params.spec with vfWriteOrder := .resultThenFlag } running).params.vfWriteOrder = .resultThenFlag := by
  decide

theorem witness_ParametersFixed : ∃ t, step running = .next t := ⟨_, rfl⟩

end Sys2Proof.Tests
end

/-! PROOF. The parameters of a block are fixed (spec/00_scope.md R8, R41): the shared operations keep them, so every
instruction does, so every answer to a trigger does. -/

namespace Sys2Proof.Machine

/-! ### The shared operations -/

/-- The state a sequence of operations has come to, whether it is done or a fault ended it. -/
def Flow.state {α : Type} : Flow α → State
  | .done _ s => s
  | .raised s => s

@[simp] theorem Flow.state_done {α : Type} (a : α) (s : State) : (Flow.done a s).state = s := rfl

@[simp] theorem Flow.state_raised {α : Type} (s : State) : (Flow.raised s : Flow α).state = s := rfl

/-- The outcome of a sequence of operations is the state it has come to. -/
theorem Flow.result_eq_next_state (f : Flow Unit) : f.result = .next f.state := by cases f <;> rfl

/-- Where the first operation keeps the parameters and the rest keeps them from every state, the sequence does. -/
theorem Flow.bind_params {α β : Type} {f : Flow α} {k : α → State → Flow β} {s : State}
    (hf : f.state.params = s.params) (hk : ∀ a t, (k a t).state.params = t.params) :
    (f.bind k).state.params = s.params := by
  cases f with
  | done a t => exact (hk a t).trans hf
  | raised t => exact hf

theorem memRead_params (a : Nat) (s : State) : (memRead a s).state.params = s.params := by
  by_cases h : a < 4096
  · rw [memRead_done h, Flow.state_done]
  · rw [memRead_raised (by omega), Flow.state_raised, raise_params]

theorem readBytes_params (n a : Nat) (s : State) : (readBytes n a s).state.params = s.params := by
  induction n generalizing a s with
  | zero => rfl
  | succ n ih => exact Flow.bind_params (memRead_params a s) fun _ t => Flow.bind_params (ih (a + 1) t) fun _ _ => rfl

theorem writeBytes_params (bs : List Byte) (a : Nat) (s : State) : (writeBytes bs a s).state.params = s.params := by
  obtain ⟨m, h⟩ | ⟨m, c, x, -, h⟩ := writeBytes_cases (a := a) (s := s) bs
  · rw [h, Flow.state_done, State.setMem_params]
  · rw [h, Flow.state_raised, raise_params, State.setMem_params]

theorem loadRegs_params (n k a : Nat) (s : State) : (loadRegs n k a s).state.params = s.params := by
  obtain ⟨v, h⟩ | ⟨v, x, h⟩ := loadRegs_cases (a := a) (s := s) n k
  · rw [h, Flow.state_done]
  · rw [h, Flow.state_raised, raise_params]

theorem skipIf_params (c : Bool) (s : State) : (skipIf c s).state.params = s.params := by
  obtain ⟨-, h⟩ | ⟨-, -, h⟩ | ⟨-, -, h⟩ := skipIf_cases (s := s) c
  · rw [h, Flow.state_done]
  · rw [h, Flow.state_done, State.setPc_params]
  · rw [h, Flow.state_raised, raise_params]

theorem push_params (w : Word) (s : State) : (push w s).state.params = s.params := by
  by_cases h : s.sp.val < 16
  · rw [push_done w h, Flow.state_done]
  · rw [push_raised w (by omega), Flow.state_raised, raise_params]

theorem pop_params (s : State) : (pop s).state.params = s.params := by
  by_cases h : 0 < s.sp.val
  · rw [pop_done h, Flow.state_done]
  · rw [pop_raised (by omega), Flow.state_raised, raise_params]

theorem fetchAdvance_params (s : State) : (fetchAdvance s).state.params = s.params := by
  obtain ⟨-, h⟩ | ⟨-, h⟩ := fetchAdvance_cases (s := s)
  · rw [h, Flow.state_done, State.setPc_params]
  · rw [h, Flow.state_raised, raise_params]

theorem flagOp_params (f : Byte → Byte → Byte × Bool) (x y : Nibble) (s : State) :
    (flagOp f x y s).params = s.params := by
  rw [flagOp_frame]

/-! ### The instructions and the triggers -/

/-- The outcome is a next state, and its parameters are those of `s`. -/
def KeepsParams (s : State) (r : Result) : Prop := ∃ t, r = .next t ∧ t.params = s.params

/-- A sequence of operations that keeps the parameters is an outcome that does. -/
theorem Flow.result_keepsParams {f : Flow Unit} {s : State} (h : f.state.params = s.params) :
    KeepsParams s f.result :=
  ⟨f.state, f.result_eq_next_state, h⟩

theorem KeepsParams.trans {s t : State} {r : Result} (h : KeepsParams t r) (hst : t.params = s.params) :
    KeepsParams s r := by
  obtain ⟨u, hr, hu⟩ := h
  exact ⟨u, hr, hu.trans hst⟩

theorem KeepsParams.mapNext {f : State → State} (hf : ∀ t, (f t).params = t.params) {s : State} {r : Result}
    (h : KeepsParams s r) : KeepsParams s (mapNext f r) := by
  obtain ⟨t, rfl, ht⟩ := h
  exact ⟨f t, rfl, (hf t).trans ht⟩

/-- Every instruction keeps the parameters: the ones that can fault and the flag-setting ones by what their shared
operation keeps, the others because each field they write is another one. -/
theorem exec_keepsParams (i : Instr) (s : State) : KeepsParams s (exec i s) := by
  cases i with
  | ret => exact Flow.result_keepsParams (Flow.bind_params (pop_params s) fun _ _ => rfl)
  | call nnn => exact Flow.result_keepsParams (Flow.bind_params (push_params s.pc s) fun _ _ => rfl)
  | seImm x kk => exact Flow.result_keepsParams (skipIf_params _ s)
  | sneImm x kk => exact Flow.result_keepsParams (skipIf_params _ s)
  | seReg x y => exact Flow.result_keepsParams (skipIf_params _ s)
  | sneReg x y => exact Flow.result_keepsParams (skipIf_params _ s)
  | skp x => exact Flow.result_keepsParams (skipIf_params _ s)
  | sknp x => exact Flow.result_keepsParams (skipIf_params _ s)
  | addReg x y => exact ⟨_, rfl, flagOp_params _ x y s⟩
  | sub x y => exact ⟨_, rfl, flagOp_params _ x y s⟩
  | shr x y => exact ⟨_, rfl, flagOp_params _ x y s⟩
  | subn x y => exact ⟨_, rfl, flagOp_params _ x y s⟩
  | shl x y => exact ⟨_, rfl, flagOp_params _ x y s⟩
  | drw x y n => exact Flow.result_keepsParams (Flow.bind_params (readBytes_params _ _ s) fun _ _ => rfl)
  | ldB x => exact Flow.result_keepsParams (writeBytes_params _ _ s)
  | ldMemVx x => exact Flow.result_keepsParams (writeBytes_params _ _ s)
  | ldVxMem x => exact Flow.result_keepsParams (loadRegs_params _ _ _ s)
  | ldVxK x =>
    show KeepsParams s (execLdVxK x s)
    unfold execLdVxK
    split
    · exact ⟨_, rfl, rfl⟩
    · exact ⟨_, rfl, rfl⟩
  | _ => exact ⟨_, rfl, rfl⟩

theorem coreStep_keepsParams (s : State) : KeepsParams s (coreStep s) := by
  have hf := fetchAdvance_params s
  unfold coreStep
  split
  · split
    · next word t h => exact (exec_keepsParams (decodeWord word) t).trans (by simpa [h] using hf)
    · next t h => exact ⟨t, rfl, by simpa [h] using hf⟩
  · exact ⟨s, rfl, rfl⟩

theorem tick_params (s : State) : (tick s).params = s.params := by
  unfold tick
  split
  · rw [State.setSt_params, State.setDt_params]
  · rfl

/-- Reset included: it builds the state of a block with the same parameters (log entry 27). -/
theorem hostReset_params (s : State) : (hostReset s).params = s.params := rfl

theorem loadImage_params (bytes : List Byte) (s : State) : (loadImage bytes s).params = s.params := by
  unfold loadImage
  split
  · split <;> rfl
  · rfl

theorem respond_keepsParams (t : Trigger) (s : State) : KeepsParams s (respond t s) := by
  cases t with
  | reset => exact ⟨_, rfl, hostReset_params s⟩
  | loadImage bytes => exact ⟨_, rfl, loadImage_params bytes s⟩
  | step => exact coreStep_keepsParams s
  | tick => exact ⟨_, rfl, tick_params s⟩

/-- Emptying the outputs before the answer and using the stimulus up after it leave the parameters too. -/
theorem step_keepsParams (s : State) : KeepsParams s (step s) :=
  ((respond_keepsParams s.stimulus.trigger s.begin).trans (State.begin_params s)).mapNext State.consume_params

/-- Settles O60: every transition ends in a state with the same parameters, so the state a transition ends in has
them. -/
theorem parametersFixed : Obligations.ParametersFixed := by
  intro s t h
  obtain ⟨u, hu, hp⟩ := step_keepsParams s
  obtain rfl : u = t := by simpa [hu] using h
  exact hp

end Sys2Proof.Machine

/-! PROOF. What an instruction can do to the block, said once: what it writes (`Update`), how it ends
(`Ending`), and that every instruction is the one followed by the other (`exec_effect`). The frames of the instructions
follow by cases. -/

namespace Sys2Proof.Machine

/-! ### What an instruction writes, and how it ends -/

/-- One of the four fatal faults (spec/60_exceptions.md R240). -/
def FaultCode.IsFatal (c : FaultCode) : Prop :=
  c = .outOfBounds ∨ c = .protectedRegion ∨ c = .stackOverflow ∨ c = .stackUnderflow

/-- Memory `n` is what stores to the writable region can make of memory `m`: the canonical form and the bytes below 512
are kept (R39, R40). -/
def Memory.StoredAbove (m n : Memory) : Prop :=
  Memory.wf m = true → Memory.wf n = true ∧ ∀ a, a < 512 → Memory.read n a = Memory.read m a

/-- What instruction `i`, executed in state `s`, can write before it ends. The premises tie each kind of write to the
instructions that may make it (R23, R33, R34, R35, R38). -/
inductive Update (i : Instr) (s : State) : State → Prop where
  | regs (v : Vector Byte 16)
      (hv : ∀ k, writesDest i k = false → ¬ (k = 15 ∧ setsFlag i = true) → { s with v := v }.reg k = s.reg k) :
      Update i s { s with v := v }
  | index (w : Word) (hi : writesIndex i = true) : Update i s (s.setI w)
  | jump (w : Word) (hw : w.toNat ≤ 4350) : Update i s (s.setPc w)
  | stepBack : Update i s (s.setPc (s.pc - 2))
  | call (w : Word) (hi : usesStack i = true) (hw : w.toNat ≤ 4350) (hsp : s.sp.val < 16) :
      Update i s { s with stack := s.stack.set s.sp.val s.pc hsp, sp := ⟨s.sp.val + 1, by omega⟩, pc := w }
  | ret (hi : usesStack i = true) (hsp : 0 < s.sp.val) :
      Update i s { s with sp := ⟨s.sp.val - 1, by omega⟩, pc := s.stack[s.sp.val - 1]'(by omega) }
  | store (m : Memory) (hi : storesMemory i = true) (hm : s.mem.StoredAbove m) : Update i s (s.setMem m)
  | timers (dt st : Byte) : Update i s { s with dt := dt, st := st }

/-- How an instruction that has written what makes `u` of the state ends: silently, with an event, or with a fatal
fault. -/
inductive Ending (u : State) : State → Prop where
  | quiet : Ending u u
  | emits (e : Event) : Ending u (u.emit e)
  | faults (c : FaultCode) (info : Nat) (hc : c.IsFatal) : Ending u (raise c info u)

/-- The outcome of an instruction: an update and an ending. -/
def Effect (i : Instr) (s : State) (r : Result) : Prop := ∃ u t, r = .next t ∧ Update i s u ∧ Ending u t

section
variable {i : Instr} {s u t : State}

theorem Flow.result_effect {f : Flow Unit} (hu : Update i s u) (he : Ending u f.state) : Effect i s f.result :=
  ⟨u, f.state, f.result_eq_next_state, hu, he⟩

/-! ### The shared operations as updates and endings -/

/-- An instruction that writes nothing. -/
theorem Update.none : Update i s s := .regs s.v fun _ _ _ => rfl

/-- The destination register is written (R23). -/
theorem Update.setReg {x : Nibble} (hx : writesDest i x = true) (b : Byte) : Update i s (s.setReg x b) :=
  .regs _ fun k hk _ => State.reg_setReg_of_ne s x k b fun e => by simp [← e, hk] at hx

/-- The destination register and the flag are written (R167). -/
theorem Update.flagOp {x : Nibble} (hx : writesDest i x = true) (hf : setsFlag i = true)
    (f : Byte → Byte → Byte × Bool) (y : Nibble) : Update i s (flagOp f x y s) := by
  rw [flagOp_frame]
  refine .regs _ fun k hk hk15 => (flagOp_reg s f x y k).trans ?_
  have hkx : k ≠ x := fun e => by simp [← e, hk] at hx
  have hk15 : k ≠ 15 := fun e => hk15 ⟨e, hf⟩
  simp only [if_neg hkx, if_neg hk15, ite_self]

theorem Memory.StoredAbove.refl (m : Memory) : m.StoredAbove m := fun h => ⟨h, fun _ _ => rfl⟩

theorem Memory.StoredAbove.trans {m n o : Memory} (h : m.StoredAbove n) (h' : n.StoredAbove o) :
    m.StoredAbove o := fun hm =>
  have ⟨hn, hmn⟩ := h hm
  have ⟨ho, hno⟩ := h' hn
  ⟨ho, fun a ha => (hno a ha).trans (hmn a ha)⟩

theorem Memory.storedAbove_set (m : Memory) {a : Nat} (b : Byte) (h1 : 512 ≤ a) (h2 : a < 4096) :
    m.StoredAbove (Memory.set m a b) := fun hm =>
  ⟨Memory.wf_set hm h2, fun x hx => by rw [Memory.read_set hm, if_neg (by omega)]⟩

/-- A sequence of writes stores above the boundary only, however it ends (R63, R70). -/
theorem writeBytes_ending (bs : List Byte) (a : Nat) (s : State) :
    ∃ m, s.mem.StoredAbove m ∧ Ending (s.setMem m) (writeBytes bs a s).state := by
  induction bs generalizing a s with
  | nil => exact ⟨s.mem, .refl _, .quiet⟩
  | cons b bs ih =>
    rw [writeBytes]
    by_cases h1 : a < 512
    · rw [memWrite_protected h1]
      exact ⟨s.mem, .refl _, .faults _ _ (.inr (.inl rfl))⟩
    · by_cases h2 : a < 4096
      · rw [memWrite_done (by omega) h2]
        obtain ⟨m, hm, he⟩ := ih (a + 1) (s.setMem (Memory.set s.mem a b))
        exact ⟨m, (Memory.storedAbove_set s.mem b (by omega) h2).trans hm, he⟩
      · rw [memWrite_outOfBounds (by omega)]
        exact ⟨s.mem, .refl _, .faults _ _ (.inl rfl)⟩

/-- Loads from `V[0]` on write no register from number `n` on, however they end (R70, R195). -/
theorem loadRegs_ending {n : Nat} (hn : n ≤ 16) (a : Nat) (s : State) :
    ∃ v, (∀ k : Nibble, n ≤ k.toNat → { s with v := v }.reg k = s.reg k) ∧
      Ending { s with v := v } (loadRegs n 0 a s).state := by
  by_cases h : n = 0 ∨ a + n ≤ 4096
  · obtain ⟨t, ht, hframe, hreg⟩ := loadRegs_done (s := s) n 0 (by omega) h
    refine ⟨t.v, fun k hk => (hreg k).trans (if_neg (by omega)), ?_⟩
    rw [ht, ← hframe]; exact .quiet
  · obtain ⟨t, ht, hframe, hreg⟩ := loadRegs_raised (s := s) (a := a) n 0 (by omega) (by omega) (by omega)
    refine ⟨t.v, fun k hk => (hreg k).trans (if_neg (by omega)), ?_⟩
    rw [ht, ← hframe]; exact .faults _ _ (.inl rfl)

/-- A conditional skip goes on within the limit, or faults there (R148). -/
theorem skipIf_effect (i : Instr) (c : Bool) (s : State) : Effect i s (skipIf c s).result := by
  obtain ⟨-, h⟩ | ⟨-, hle, h⟩ | ⟨-, -, h⟩ := skipIf_cases (s := s) c
  · exact Flow.result_effect .none (h ▸ .quiet)
  · have hl := s.params.pcAdvanceLimit.value_bounds
    have hw : (BitVec.ofNat 16 (s.pc.toNat + 2)).toNat ≤ 4350 := by rw [BitVec.toNat_ofNat]; omega
    exact Flow.result_effect (.jump _ hw) (h ▸ .quiet)
  · exact Flow.result_effect .none (h ▸ .faults _ _ (.inl rfl))

theorem setReg_effect {x : Nibble} {b : Byte} (h : exec i s = .next (s.setReg x b)) (hx : writesDest i x = true) :
    Effect i s (exec i s) :=
  ⟨_, _, h, .setReg hx b, .quiet⟩

theorem flagOp_effect {f : Byte → Byte → Byte × Bool} {x y : Nibble} (h : exec i s = .next (flagOp f x y s))
    (hx : writesDest i x = true) (hf : setsFlag i = true) : Effect i s (exec i s) :=
  ⟨_, _, h, .flagOp hx hf f y, .quiet⟩

theorem writeBytes_effect (hi : storesMemory i = true) (bs : List Byte) (a : Nat) (s : State) :
    Effect i s (writeBytes bs a s).result := by
  obtain ⟨m, hm, he⟩ := writeBytes_ending bs a s
  exact Flow.result_effect (.store m hi hm) he

theorem zextAddr_toNat (nnn : Addr12) : (zextAddr nnn).toNat = nnn.toNat := by
  rw [zextAddr, BitVec.toNat_setWidth, Nat.mod_eq_of_lt (by omega)]

theorem zextByte_toNat (b : Byte) : (zextByte b).toNat = b.toNat := by
  rw [zextByte, BitVec.toNat_setWidth, Nat.mod_eq_of_lt (by omega)]

/-- The target of `JP V0, nnn` is the unreduced sum (R143). -/
theorem zextAddr_add_zextByte_toNat (nnn : Addr12) (b : Byte) :
    (zextAddr nnn + zextByte b).toNat = nnn.toNat + b.toNat := by
  rw [BitVec.toNat_add, zextAddr_toNat, zextByte_toNat, Nat.mod_eq_of_lt (by omega)]

theorem execRet_effect (s : State) : Effect .ret s (execRet s) := by
  unfold execRet
  by_cases h : 0 < s.sp.val
  · exact Flow.result_effect (.ret rfl h) (by rw [pop_done h]; exact .quiet)
  · exact Flow.result_effect .none (by rw [pop_raised (by omega)]; exact .faults _ _ (.inr (.inr (.inr rfl))))

theorem execCall_effect (nnn : Addr12) (s : State) : Effect (.call nnn) s (execCall nnn s) := by
  unfold execCall
  by_cases h : s.sp.val < 16
  · exact Flow.result_effect (.call (zextAddr nnn) rfl (by rw [zextAddr_toNat]; omega) h)
      (by rw [push_done s.pc h]; exact .quiet)
  · exact Flow.result_effect .none
      (by rw [push_raised s.pc (by omega)]; exact .faults _ _ (.inr (.inr (.inl rfl))))

theorem execDrw_effect (x y n : Nibble) (s : State) : Effect (.drw x y n) s (execDrw x y n s) := by
  unfold execDrw
  by_cases h : n.toNat = 0 ∨ s.base + n.toNat ≤ 4096
  · rw [readBytes_done n.toNat h]
    exact Flow.result_effect
      (.regs _ fun k _ hk => State.reg_setReg_of_ne s 15 k _ fun e => hk ⟨e, rfl⟩) (.emits _)
  · rw [readBytes_raised n.toNat (by omega) (by omega)]
    exact Flow.result_effect .none (.faults _ _ (.inl rfl))

theorem execLdVxMem_effect (x : Nibble) (s : State) : Effect (.ldVxMem x) s (execLdVxMem x s) := by
  obtain ⟨v, hv, he⟩ := loadRegs_ending (n := x.toNat + 1) (by omega) s.base s
  exact Flow.result_effect (.regs v fun k hk _ => hv k (Nat.lt_of_not_le (of_decide_eq_false hk))) he

theorem execLdVxK_effect (x : Nibble) (s : State) : Effect (.ldVxK x) s (execLdVxK x s) := by
  unfold execLdVxK
  split
  · exact ⟨_, _, rfl, .setReg (show writesDest (.ldVxK x) x = true from beq_self_eq_true x) _, .quiet⟩
  · exact ⟨_, _, rfl, .stepBack, .emits _⟩

/-- Every instruction is an update and an ending. -/
theorem exec_effect (i : Instr) (s : State) : Effect i s (exec i s) := by
  have dest (x : Nibble) : (x == x) = true := beq_self_eq_true x
  cases i with
  | cls | unknown word => exact ⟨_, _, rfl, .none, .emits _⟩
  | ret => exact execRet_effect s
  | call nnn => exact execCall_effect nnn s
  | jp nnn => exact ⟨_, _, rfl, .jump _ (by rw [zextAddr_toNat]; omega), .quiet⟩
  | jpV0 nnn => exact ⟨_, _, rfl, .jump _ (by rw [zextAddr_add_zextByte_toNat]; omega), .quiet⟩
  | seImm x k | sneImm x k | seReg x k | sneReg x k => exact skipIf_effect _ _ s
  | skp x | sknp x => exact skipIf_effect _ _ s
  | ldImm x k | addImm x k | ldReg x k | orReg x k | andReg x k | xorReg x k | rnd x k =>
    exact setReg_effect rfl (dest x)
  | ldVxDt x => exact setReg_effect rfl (dest x)
  | ldVxK x => exact execLdVxK_effect x s
  | addReg x y | sub x y | shr x y | subn x y | shl x y => exact flagOp_effect rfl (dest x) rfl
  | ldI nnn => exact ⟨_, _, rfl, .index _ rfl, .quiet⟩
  | addI x | ldF x => exact ⟨_, _, rfl, .index _ rfl, .quiet⟩
  | ldDtVx x => exact ⟨_, _, rfl, .timers (s.reg x) s.st, .emits _⟩
  | ldStVx x => exact ⟨_, _, rfl, .timers s.dt (s.reg x), .emits _⟩
  | ldB x | ldMemVx x => exact writeBytes_effect rfl _ _ s
  | ldVxMem x => exact execLdVxMem_effect x s
  | drw x y n => exact execDrw_effect x y n s

/-- What is known of the state an instruction ends in. -/
theorem exec_inversion (h : exec i s = .next t) : ∃ u, Update i s u ∧ Ending u t := by
  obtain ⟨u, t', ht', hu, he⟩ := exec_effect i s
  obtain rfl : t' = t := by simpa [ht'] using h
  exact ⟨u, hu, he⟩

/-! ### What an update and an ending leave unchanged -/

/-- An ending touches nothing but `RUN`, `FAULT` and the event record (R17, R246). -/
theorem Ending.frame (h : Ending u t) : t = { u with run := t.run, fault := t.fault, events := t.events } := by
  cases h <;> rfl

theorem Update.mem_eq (h : Update i s u) (hi : storesMemory i = false) : u.mem = s.mem := by
  cases h with
  | store m hi' hm => simp [hi] at hi'
  | _ => rfl

theorem Update.storedAbove (h : Update i s u) : s.mem.StoredAbove u.mem := by
  cases h with
  | store m hi hm => exact hm
  | _ => exact .refl _

theorem Update.stack_eq (h : Update i s u) (hi : usesStack i = false) : u.sp = s.sp ∧ u.stack = s.stack := by
  cases h with
  | call w hi' hw hsp => simp [hi] at hi'
  | ret hi' hsp => simp [hi] at hi'
  | _ => exact ⟨rfl, rfl⟩

theorem Update.index_eq (h : Update i s u) (hi : writesIndex i = false) : u.i = s.i := by
  cases h with
  | index w hi' => simp [hi] at hi'
  | _ => rfl

theorem Update.reg_eq (h : Update i s u) {k : Nibble} (hd : writesDest i k = false)
    (hf : ¬ (k = 15 ∧ setsFlag i = true)) : u.reg k = s.reg k := by
  cases h with
  | regs v hv => exact hv k hd hf
  | _ => rfl

theorem Update.events_eq (h : Update i s u) : u.events = s.events := by cases h <;> rfl

theorem Ending.events_length_le (h : Ending u t) : t.events.length ≤ u.events.length + 1 := by
  cases h <;> simp

end

/-- Settles O12: an update without a store keeps memory, and no ending touches it. -/
theorem nonStoringKeepsMemory : Obligations.NonStoringKeepsMemory := by
  intro i s t hi h a
  obtain ⟨u, hu, he⟩ := exec_inversion h
  rw [he.frame, hu.mem_eq hi]

/-- Settles O13: stores reach the writable region only. -/
theorem reservedRegionKept : Obligations.ReservedRegionKept := by
  intro i s t hs h a ha
  obtain ⟨u, hu, he⟩ := exec_inversion h
  rw [he.frame]
  exact (hu.storedAbove hs).2 a ha

/-- Settles O56: the only updates of `SP` and the slots are those of `CALL` and `RET`. -/
theorem stackOnlyByCallRet : Obligations.StackOnlyByCallRet := by
  intro i s t hi h
  obtain ⟨u, hu, he⟩ := exec_inversion h
  rw [he.frame]
  exact hu.stack_eq hi

/-- Settles O57: the one update of `I` is that of the instructions that write it. -/
theorem indexWriters : Obligations.IndexWriters := by
  intro i s t hi h
  obtain ⟨u, hu, he⟩ := exec_inversion h
  rw [he.frame]
  exact hu.index_eq hi

/-- Settles O58: an update of the register file says which registers it may reach. -/
theorem registerWriters : Obligations.RegisterWriters := by
  intro i s t k hd hf h
  obtain ⟨u, hu, he⟩ := exec_inversion h
  rw [he.frame]
  exact hu.reg_eq hd hf

end Sys2Proof.Machine

/-! PROOF. What one transition can be (`Answer`), and the invariants every transition keeps. -/

namespace Sys2Proof.Machine

/-! ### What a transition can be -/

/-- What the answer to a trigger can make of a state whose outputs are empty (spec/10_state.md R51). -/
inductive Answer (s : State) : State → Prop where
  | resets : Answer s (hostReset s)
  | loads (bytes : List Byte) (hoff : s.run = .poweredOff) (hlen : bytes.length ≤ 3584) :
      Answer s { s with mem := Memory.setBytes s.mem 512 bytes, run := .running }
  | idles (report : Option HostReport) : Answer s { s with hostReport := report }
  | ticks (hrun : s.run = .running) (dt st : Byte) : Answer s ((s.setDt dt).setSt st)
  | fetchFaults (info : Nat) : Answer s (raise .outOfBounds info s)
  | executes (i : Instr) (w : Word) (t : State) (hrun : s.run = .running) (hlow : 2 ≤ w.toNat)
      (hhigh : w.toNat ≤ 4096) (h : exec i (s.setPc w) = .next t) : Answer s t

section
variable {s t u : State}

theorem loadImage_answer (bytes : List Byte) (s : State) : Answer s (loadImage bytes s) := by
  unfold loadImage
  split
  · next hoff =>
    split
    · exact .idles _
    · next hlen => exact .loads bytes hoff (Nat.not_lt.mp hlen)
  · exact .idles s.hostReport

theorem tick_answer (s : State) : Answer s (tick s) := by
  unfold tick
  split
  · next hrun => exact .ticks hrun _ _
  · exact .idles s.hostReport

/-- A step fetches and advances, or faults there, before an instruction is executed (R120 to R124). -/
theorem coreStep_answer (h : coreStep s = .next t) : Answer s t := by
  unfold coreStep at h
  split at h
  · next hrun =>
    obtain ⟨hle, hf⟩ | ⟨-, hf⟩ := fetchAdvance_cases (s := s)
    · have hl := s.params.pcAdvanceLimit.value_bounds
      have hw : (BitVec.ofNat 16 (s.pc.toNat + 2)).toNat = s.pc.toNat + 2 := by
        rw [BitVec.toNat_ofNat]; omega
      rw [hf] at h
      exact .executes _ _ t hrun (by omega) (by omega) h
    · rw [hf] at h
      cases h
      exact .fetchFaults _
  · cases h
    exact .idles s.hostReport

theorem respond_answer {g : Trigger} (h : respond g s = .next t) : Answer s t := by
  cases g with
  | reset => cases h; exact .resets
  | loadImage bytes => cases h; exact loadImage_answer bytes s
  | step => exact coreStep_answer h
  | tick => cases h; exact tick_answer s

/-- What is known of the state a transition ends in. -/
theorem step_inversion (h : step s = .next t) : ∃ u, Answer s.begin u ∧ t = u.consume := by
  unfold step transition at h
  cases hr : respond s.stimulus.trigger s.begin with
  | next u => exact ⟨u, respond_answer hr, by simpa [hr, mapNext] using h.symm⟩
  | fault r => simp [hr, mapNext] at h
  | refused r => simp [hr, mapNext] at h

theorem Answer.memCanonical (h : Answer s t) (hs : s.MemCanonical) : t.MemCanonical := by
  cases h with
  | resets => exact Memory.wf_construct s.params
  | loads bytes hoff hlen => exact Memory.wf_setBytes bytes hs (by omega)
  | executes i w t hrun hlow hhigh h =>
    obtain ⟨u, hu, he⟩ := exec_inversion h
    rw [he.frame]
    exact (hu.storedAbove hs).1
  | _ => exact hs

theorem Answer.events_length_le (h : Answer s t) (hs : s.events = []) : t.events.length ≤ 1 := by
  cases h with
  | executes i w t hrun hlow hhigh h =>
    obtain ⟨u, hu, he⟩ := exec_inversion h
    have hlen := he.events_length_le
    rw [hu.events_eq, State.setPc_events, hs] at hlen
    exact hlen
  | resets => exact Nat.zero_le 1
  | fetchFaults info => exact Nat.le_refl 1
  | _ => simp [hs]

/-! ### The invariant -/

/-- The block of `s` with the environment and the outputs of `t`. -/
def State.withOutside (s t : State) : State :=
  { s with schedule := t.schedule, drawn := t.drawn, events := t.events, hostReport := t.hostReport }

theorem sameBlock_iff : SameBlock s t ↔ t = s.withOutside t := Iff.rfl

/-- States of the same block meet the invariant alike: it does not speak of the environment and the outputs. -/
theorem State.Inv.of_sameBlock (hs : s.Inv) (h : SameBlock s t) : t.Inv := by
  rw [sameBlock_iff.mp h]
  exact { hs with pristineWhenOff := fun hoff => congrArg (·.withOutside t) (hs.pristineWhenOff hoff) }

theorem SameBlock.trans (h : SameBlock s u) (h' : SameBlock u t) : SameBlock s t :=
  Eq.trans h' (congrArg (·.withOutside t) h)

theorem sameBlock_begin (s : State) : SameBlock s s.begin := rfl

theorem sameBlock_consume (s : State) : SameBlock s s.consume := by
  unfold State.consume; split <;> rfl

/-- The state after reset of a block of any parameters meets the invariant (R54). -/
theorem resetWith_inv (p : Params) : (State.resetWith p).Inv where
  memCanonical := Memory.wf_construct p
  reservedIntact a _ := Memory.read_construct p a
  pcBounded := show (512 : Word).toNat ≤ 4350 by decide
  returnsBounded k _ hlt := absurd hlt (Nat.not_lt_zero k)
  faultMatchesRun := rfl
  pristineWhenOff _ := rfl

theorem hostReset_inv (s : State) : (hostReset s).Inv := (resetWith_inv s.params).of_sameBlock rfl

/-- Taking a fatal fault keeps the invariant (R246). -/
theorem State.Inv.raise (hs : s.Inv) {c : FaultCode} (hc : c.IsFatal) (info : Nat) : (raise c info s).Inv :=
  { hs with faultMatchesRun := hc, pristineWhenOff := nofun }

theorem Ending.inv (h : Ending u t) (hu : u.Inv) : t.Inv := by
  cases h with
  | quiet => exact hu
  | emits e => exact hu.of_sameBlock rfl
  | faults c info hc => exact hu.raise hc info

/-- A running machine may set the program counter to any value within the bound (R29). -/
theorem State.Inv.setPc (hs : s.Inv) (hrun : s.run = .running) {w : Word} (hw : w.toNat ≤ 4350) : (s.setPc w).Inv :=
  { hs with pcBounded := hw, pristineWhenOff := fun hoff => by simp [hrun] at hoff }

/-- Memory that keeps its form and its reserved region, in a machine that is running, keeps the invariant (R40). -/
theorem State.Inv.setMem (hs : s.Inv) (hrun : s.run = .running) {m : Memory} (hm : s.mem.StoredAbove m) :
    (s.setMem m).Inv :=
  have ⟨hwf, hlow⟩ := hm hs.memCanonical
  { hs with
    memCanonical := hwf
    reservedIntact := fun a ha => (hlow a ha).trans (hs.reservedIntact a ha)
    pristineWhenOff := fun hoff => by simp [hrun] at hoff }

/-- Pushing an address of at most 4096 keeps the return addresses bounded (R29, R31). -/
theorem State.ReturnsBounded.push (hs : s.ReturnsBounded) {a : Word} (ha : a.toNat ≤ 4096) (hsp : s.sp.val < 16) :
    { s with stack := s.stack.set s.sp.val a hsp, sp := ⟨s.sp.val + 1, by omega⟩ }.ReturnsBounded := by
  intro k hk hlt
  simp only [Vector.getElem_set]
  split
  · exact ha
  · exact hs k hk (by simp only at hlt; omega)

/-- What an instruction writes keeps the invariant of a machine that has advanced past it: only `CALL` and
`LD Vx, K` use that the program counter lies between 2 and 4096. -/
theorem Update.inv {i : Instr} (h : Update i s u) (hs : s.Inv) (hrun : s.run = .running) (hlow : 2 ≤ s.pc.toNat)
    (hhigh : s.pc.toNat ≤ 4096) : u.Inv := by
  have notOff (hoff : s.run = .poweredOff) : u = { State.resetWith u.params with
      schedule := u.schedule, drawn := u.drawn, events := u.events, hostReport := u.hostReport } := by
    simp [hrun] at hoff
  cases h with
  | regs v hv => exact { hs with pristineWhenOff := notOff }
  | index w hi => exact { hs with pristineWhenOff := notOff }
  | timers dt st => exact { hs with pristineWhenOff := notOff }
  | jump w hw => exact hs.setPc hrun hw
  | stepBack => exact hs.setPc hrun (by bv_omega)
  | store m hi hm => exact hs.setMem hrun hm
  | call w hi hw hsp =>
    exact { hs with
      pcBounded := hw, returnsBounded := hs.returnsBounded.push hhigh hsp, pristineWhenOff := notOff }
  | ret hi hsp =>
    have hpc := hs.returnsBounded (s.sp.val - 1) (by omega) (by omega)
    exact { hs with
      pcBounded := Nat.le_trans hpc (by decide)
      returnsBounded := fun k hk hlt => hs.returnsBounded k hk (by simp only at hlt; omega)
      pristineWhenOff := notOff }

/-- Loading an image into a block that is off keeps the invariant (R274, R275). -/
theorem State.Inv.load (hs : s.Inv) (hoff : s.run = .poweredOff) {bytes : List Byte} (hlen : bytes.length ≤ 3584) :
    { s with mem := Memory.setBytes s.mem 512 bytes, run := .running }.Inv :=
  { hs with
    memCanonical := Memory.wf_setBytes bytes hs.memCanonical (by omega)
    reservedIntact := fun a ha => by
      rw [Memory.read_setBytes bytes hs.memCanonical (by omega), dif_neg (by omega)]
      exact hs.reservedIntact a ha
    faultMatchesRun := by
      have hfault := hs.faultMatchesRun
      rw [State.FaultMatchesRun, hoff] at hfault
      exact hfault
    pristineWhenOff := nofun }

/-- Whatever the trigger, its answer keeps the invariant. -/
theorem Answer.inv (h : Answer s t) (hs : s.Inv) : t.Inv := by
  cases h with
  | resets => exact hostReset_inv s
  | loads bytes hoff hlen => exact hs.load hoff hlen
  | idles report => exact hs.of_sameBlock rfl
  | ticks hrun dt st => exact { hs with pristineWhenOff := fun hoff => by simp [hrun] at hoff }
  | fetchFaults info => exact hs.raise (.inl rfl) info
  | executes i w t hrun hlow hhigh h =>
    obtain ⟨u, hu, he⟩ := exec_inversion h
    exact he.inv (hu.inv (hs.setPc hrun (by omega)) hrun hlow hhigh)

end

/-- Settles O27: the invariant holds after reset, for any parameters. -/
theorem resetInv : Obligations.ResetInv :=
  ⟨State.resetWith_spec ▸ resetWith_inv Params.spec, resetWith_inv⟩

/-- Settles O28: the answer to the trigger keeps the invariant, and the outputs and the environment are no part of
it. -/
theorem stepKeepsInv : Obligations.StepKeepsInv := by
  intro s t hs h
  obtain ⟨u, hu, rfl⟩ := step_inversion h
  exact (hu.inv (hs.of_sameBlock (sameBlock_begin s))).of_sameBlock (sameBlock_consume u)

/-- Settles O14: stores inside memory, loaded images and the reset contents are all canonical. -/
theorem stepKeepsMemCanonical : Obligations.StepKeepsMemCanonical := by
  intro s t hs h
  obtain ⟨u, hu, rfl⟩ := step_inversion h
  rw [State.MemCanonical, State.consume_mem]
  exact hu.memCanonical hs

/-- Settles O24: a transition starts with an empty event record and its answer adds at most one event. -/
theorem atMostOneEvent : Obligations.AtMostOneEvent := by
  intro s t h
  obtain ⟨u, hu, rfl⟩ := step_inversion h
  rw [State.consume_events]
  exact hu.events_length_le s.begin_events

end Sys2Proof.Machine

/-! PROOF. Memory as data, the state `Reset` leaves, the random byte and the wait for a key. -/

namespace Sys2Proof.Machine

/-! ### Canonical memories -/

section
variable {m n : Memory} {k l : Nat} {c d : Byte}

/-- The first entry of a memory is what its address reads as. -/
theorem Memory.read_head : Memory.read ((k, c) :: m) k = c := by simp [Memory.read]

/-- A canonical memory that starts with an entry does not read there as a memory does whose entries are all above. -/
theorem Memory.read_head_ne (hm : Memory.wf ((k, c) :: m) = true) (hn : ∀ e ∈ n, k < e.1) :
    Memory.read ((k, c) :: m) k ≠ Memory.read n k := by
  obtain ⟨-, hc, -, -⟩ := Memory.wf_cons.mp hm
  rwa [Memory.read_head, Memory.read_of_lt hn]

/-- The tails of canonical memories that start at the same address and read alike read alike too. -/
theorem Memory.read_tail_eq (hm : ∀ e ∈ m, k < e.1) (hn : ∀ e ∈ n, k < e.1) {a : Nat}
    (h : Memory.read ((k, c) :: m) a = Memory.read ((k, d) :: n) a) : Memory.read m a = Memory.read n a := by
  by_cases ha : a ≤ k
  · rw [Memory.read_of_lt fun e he => Nat.lt_of_le_of_lt ha (hm e he),
      Memory.read_of_lt fun e he => Nat.lt_of_le_of_lt ha (hn e he)]
  · simpa [Memory.read, show ¬ a < k by omega, show a ≠ k by omega] using h

/-- The entries of a canonical memory whose first address is above `k` are all above `k`. -/
theorem Memory.lt_of_head (hm : Memory.wf ((l, d) :: m) = true) (hkl : k < l) : ∀ e ∈ (l, d) :: m, k < e.1 := by
  obtain ⟨-, -, hlt, -⟩ := Memory.wf_cons.mp hm
  intro e he
  rcases List.mem_cons.mp he with rfl | he
  · exact hkl
  · exact Nat.lt_trans hkl (hlt e he)

end

/-- Settles O10, by induction on both memories: where their first entries differ, they read differently at the lower of
the two addresses. -/
theorem memoryExtensional : Obligations.MemoryExtensional := by
  intro m
  induction m with
  | nil =>
    intro n _ hn h
    cases n with
    | nil => rfl
    | cons e n =>
      obtain ⟨hk, -⟩ := Memory.wf_cons.mp hn
      exact absurd (h e.1 hk).symm (Memory.read_head_ne hn (by simp))
  | cons e m ih =>
    obtain ⟨k, c⟩ := e
    intro n hm hn h
    obtain ⟨hk, -, hmlt, hmwf⟩ := Memory.wf_cons.mp hm
    cases n with
    | nil => exact absurd (h k hk) (Memory.read_head_ne hm (by simp))
    | cons f n =>
      obtain ⟨l, d⟩ := f
      obtain ⟨hl, -, hnlt, hnwf⟩ := Memory.wf_cons.mp hn
      obtain hkl | rfl | hlk := Nat.lt_trichotomy k l
      · exact absurd (h k hk) (Memory.read_head_ne hm (Memory.lt_of_head hn hkl))
      · obtain rfl : c = d := by simpa [Memory.read_head] using h k hk
        rw [ih n hmwf hnwf fun a ha => Memory.read_tail_eq hmlt hnlt (h a ha)]
      · exact absurd (h l hl).symm (Memory.read_head_ne hn (Memory.lt_of_head hm hlk))

/-! ### The reset state -/

/-- The registers after reset are zero (R54). -/
theorem resetWith_reg (p : Params) (x : Nibble) : (State.resetWith p).reg x = 0 :=
  Vector.getElem_replicate x.isLt

/-- A transition whose trigger is `Reset`. -/
theorem step_reset {s : State} (h : s.stimulus.trigger = .reset) :
    step s = .next (hostReset s.begin).consume := by
  unfold step transition
  rw [h]; rfl

/-- Settles O20: the transition ends in the state of `State.resetWith`, with the stimulus used up. -/
theorem resetLeaves : Obligations.ResetLeaves := by
  intro s h
  refine ⟨_, step_reset h, ?_⟩
  simp only [State.consume_pc, State.consume_reg, State.consume_i, State.consume_sp, State.consume_dt,
    State.consume_st, State.consume_run, State.consume_fault, State.consume_events, State.consume_params,
    State.consume_mem, State.tone]
  exact ⟨rfl, resetWith_reg s.params, rfl, rfl, rfl, rfl, rfl, rfl, rfl, rfl, rfl,
    fun a _ => Memory.read_construct s.params a⟩

/-! ### The random byte and the keys -/

section
variable {i : Instr} {s : State} {x : Nibble} {b : Byte}

/-- An instruction that sets one register writes it and nothing else. -/
theorem writesReg_of_setReg (h : exec i s = .next (s.setReg x b)) : WritesReg i s x b :=
  ⟨_, h, State.reg_setReg_self s x b, fun y hy => State.reg_setReg_of_ne s x y b hy, rfl⟩

theorem exec_rnd (s : State) (x : Nibble) (kk : Byte) :
    exec (.rnd x kk) s = .next (s.setReg x (s.inputs.randIn &&& kk)) := rfl

/-- The lowest key down is down. -/
theorem lowestKey_down {keys : BitVec 16} (h : keys ≠ 0) : keys.getLsbD (lowestKey keys).toNat = true := by
  cases hf : (List.range 16).find? fun k => keys.getLsbD k with
  | none =>
    refine absurd (BitVec.eq_of_getLsbD_eq fun k hk => ?_) h
    rw [eq_false_of_ne_true (List.find?_eq_none.mp hf k (List.mem_range.mpr hk)), BitVec.ofNat_eq_ofNat,
      BitVec.getLsbD_zero]
  | some k =>
    have hk : k < 16 := List.mem_range.mp (List.mem_of_find?_eq_some hf)
    have hdown : keys.getLsbD k = true := List.find?_some hf
    rw [lowestKey, hf, BitVec.toNat_ofNat, Option.getD_some, Nat.mod_eq_of_lt hk]
    exact hdown

/-- The key sampled is down whenever some key is (R46). -/
theorem keyPick_down (h : s.inputs.keys ≠ 0) : s.inputs.keys.getLsbD s.keyPick.toNat = true := by
  unfold State.keyPick
  split
  · next hoffered => exact hoffered
  · exact lowestKey_down h

theorem keyPick_of_down (h : s.inputs.keys.getLsbD s.inputs.keyPick.toNat = true) :
    s.keyPick = s.inputs.keyPick := if_pos h

theorem zextKey_eq (k : Nibble) : zextKey k = BitVec.ofNat 8 k.toNat := (BitVec.ofNat_toNat 8 k).symm

/-- `LD Vx, K` with some key down (R225). -/
theorem exec_ldVxK_down (h : s.inputs.keys ≠ 0) :
    exec (.ldVxK x) s = .next (s.setReg x (BitVec.ofNat 8 s.keyPick.toNat)) := by
  rw [← zextKey_eq]
  exact if_pos (decide_eq_true h)

/-- `LD Vx, K` with no key down (R225). -/
theorem exec_ldVxK_up (h : s.inputs.keys = 0) :
    exec (.ldVxK x) s = .next { s with pc := s.pc - 2, events := s.events ++ [.keyWaitRequest x] } :=
  if_neg (by simp [State.anyKeyDown, h])

/-- A step that fetches and advances executes the instruction at the program counter (R120 to R124). -/
theorem step_of_executes (h : s.Executes) :
    step s = mapNext State.consume (exec (decodeWord s.wordAtPc) s.advanced) := by
  obtain ⟨hrun, htrigger, hpc⟩ := h
  obtain ⟨-, hf⟩ | ⟨hlt, -⟩ := fetchAdvance_cases (s := s.begin)
  · unfold step transition
    rw [htrigger]
    simp only [respond, coreStep, State.begin_run, hrun, if_pos, hf]
    rfl
  · exact absurd hlt (Nat.not_lt.mpr hpc)

end

/-- Settles O48: a bit that is clear in the mask is clear in the byte written. -/
theorem rndRule : Obligations.RndRule := by
  intro s x kk
  refine ⟨writesReg_of_setReg (exec_rnd s x kk), fun t k h hk => ?_⟩
  rw [exec_rnd] at h
  cases h
  rw [State.reg_setReg_self, BitVec.getLsbD_and, hk, Bool.and_false]

/-- Settles O53: the key stored is the one sampled, which is down. -/
theorem waitKeyRule : Obligations.WaitKeyRule := fun _ _ =>
  ⟨fun h => ⟨_, keyPick_down h, keyPick_of_down, writesReg_of_setReg (exec_ldVxK_down h)⟩, exec_ldVxK_up⟩

/-- Settles O54: stepping the program counter back undoes the advance. -/
theorem keyWaitIsNoOp : Obligations.KeyWaitIsNoOp := by
  intro s x hs hd hkeys
  refine ⟨_, by rw [step_of_executes hs, hd, exec_ldVxK_up (s := s.advanced) hkeys]; rfl, ?_, ?_⟩
  · have hpc : s.advanced.pc - 2 = s.pc := by
      show BitVec.ofNat 16 (s.pc.toNat + 2) - 2 = s.pc
      bv_omega
    rw [hpc]
    refine SameBlock.trans ?_ (sameBlock_consume _)
    exact rfl
  · rw [State.consume_events]; rfl

end Sys2Proof.Machine

/-! PROOF. The instructions that read no input do not see the environment (spec/10_state.md R45 to R48): each shared
operation commutes with exchanging it, so each instruction does. -/

namespace Sys2Proof.Machine

/-- The same block in another environment. -/
def State.inEnv (sched : List Stimulus) (n : Nat) (s : State) : State := { s with schedule := sched, drawn := n }

/-- The same sequence of operations, come to another environment. -/
def Flow.inEnv {α : Type} (sched : List Stimulus) (n : Nat) : Flow α → Flow α
  | .done a s => .done a (s.inEnv sched n)
  | .raised s => .raised (s.inEnv sched n)

section
variable {sched : List Stimulus} {n : Nat}

/-- A sequence sees no environment where its first operation and the rest see none. -/
theorem Flow.bind_inEnv {α β : Type} {k : α → State → Flow β} (f : Flow α)
    (hk : ∀ a t, k a (t.inEnv sched n) = (k a t).inEnv sched n) :
    (f.inEnv sched n).bind k = (f.bind k).inEnv sched n := by
  cases f with
  | done a t => exact hk a t
  | raised t => rfl

theorem Flow.result_inEnv (f : Flow Unit) :
    (f.inEnv sched n).result = mapNext (State.inEnv sched n) f.result := by
  cases f <;> rfl

theorem memRead_inEnv (a : Nat) (s : State) : memRead a (s.inEnv sched n) = (memRead a s).inEnv sched n := by
  unfold memRead
  split <;> rfl

theorem memWrite_inEnv (a : Nat) (b : Byte) (s : State) :
    memWrite a b (s.inEnv sched n) = (memWrite a b s).inEnv sched n := by
  unfold memWrite
  split
  · rfl
  · split <;> rfl

theorem writeBytes_inEnv (bs : List Byte) (a : Nat) (s : State) :
    writeBytes bs a (s.inEnv sched n) = (writeBytes bs a s).inEnv sched n := by
  induction bs generalizing a s with
  | nil => rfl
  | cons b bs ih =>
    rw [writeBytes, writeBytes, memWrite_inEnv]
    exact Flow.bind_inEnv _ fun _ t => ih (a + 1) t

theorem loadRegs_inEnv (count k a : Nat) (s : State) :
    loadRegs count k a (s.inEnv sched n) = (loadRegs count k a s).inEnv sched n := by
  induction count generalizing k a s with
  | zero => rfl
  | succ count ih =>
    rw [loadRegs, loadRegs, memRead_inEnv]
    exact Flow.bind_inEnv _ fun b t => ih (k + 1) (a + 1) (t.setReg (BitVec.ofNat 4 k) b)

theorem skipIf_inEnv (c : Bool) (s : State) : skipIf c (s.inEnv sched n) = (skipIf c s).inEnv sched n := by
  obtain ⟨rfl, h⟩ | ⟨rfl, hle, h⟩ | ⟨rfl, hlt, h⟩ := skipIf_cases (s := s) c
  · rfl
  · rw [h]; exact advancePC_done hle
  · rw [h]; exact advancePC_raised hlt

theorem push_inEnv (w : Word) (s : State) : push w (s.inEnv sched n) = (push w s).inEnv sched n := by
  by_cases h : s.sp.val < 16
  · rw [push_done w h]
    exact push_done (s := s.inEnv sched n) w h
  · have h16 : s.sp.val = 16 := by omega
    rw [push_raised w h16]
    exact push_raised (s := s.inEnv sched n) w h16

theorem pop_inEnv (s : State) : pop (s.inEnv sched n) = (pop s).inEnv sched n := by
  by_cases h : 0 < s.sp.val
  · rw [pop_done h]
    exact pop_done (s := s.inEnv sched n) h
  · have h0 : s.sp.val = 0 := by omega
    rw [pop_raised h0]
    exact pop_raised (s := s.inEnv sched n) h0

theorem flagOp_inEnv (f : Byte → Byte → Byte × Bool) (x y : Nibble) (s : State) :
    flagOp f x y (s.inEnv sched n) = (flagOp f x y s).inEnv sched n := by
  unfold flagOp State.writeFlagged
  cases h : s.params.vfWriteOrder <;> simp only [State.inEnv, h] <;> rfl

/-- An instruction that is one sequence of operations which sees no environment. -/
theorem Flow.result_of_inEnv {f g : Flow Unit} (h : g = f.inEnv sched n) :
    g.result = mapNext (State.inEnv sched n) f.result := h ▸ f.result_inEnv

end

/-- Settles O59: the instructions that can fault and the flag-setting ones by their shared operation, the others
because what they write does not depend on the environment. -/
theorem inputIndependence : Obligations.InputIndependence := by
  intro i s sched n hi
  change exec i (s.inEnv sched n) = mapNext (State.inEnv sched n) (exec i s)
  cases i with
  | rnd x kk | drw x y k | skp x | sknp x | ldVxK x => simp [readsInput] at hi
  | ret =>
    refine Flow.result_of_inEnv ?_
    rw [pop_inEnv]
    exact Flow.bind_inEnv _ fun _ _ => rfl
  | call nnn =>
    refine Flow.result_of_inEnv ?_
    rw [show (s.inEnv sched n).pc = s.pc from rfl, push_inEnv]
    exact Flow.bind_inEnv _ fun _ _ => rfl
  | seImm x k | sneImm x k | seReg x k | sneReg x k => exact Flow.result_of_inEnv (skipIf_inEnv _ s)
  | addReg x y | sub x y | shr x y | subn x y | shl x y =>
    exact congrArg Host.Outcome.next (flagOp_inEnv _ x y s)
  | ldB x | ldMemVx x => exact Flow.result_of_inEnv (writeBytes_inEnv _ s.base s)
  | ldVxMem x => exact Flow.result_of_inEnv (loadRegs_inEnv _ 0 s.base s)
  | _ => rfl

end Sys2Proof.Machine

/-! PROOF. The decoder against the encoder, both ways round (spec/30_encoding.md R97, R98, R102), and the bytes of an
instruction (spec/20_memory.md R66). -/

namespace Sys2Proof

/-! ### Every word is the encoding of what it decodes to -/

section
variable {w : Word}

/-- A word of format `NNN` from its first nibble (R93). -/
theorem encodeNnn_eq {op : Nibble} (hop : (opField w).toNat = op.toNat) : encodeNnn op (nnnField w) = w := by
  rw [← BitVec.eq_of_toNat_eq hop, encodeNnn_fields]

/-- A word of format `XKK` from its first nibble (R93). -/
theorem encodeXkk_eq {op : Nibble} (hop : (opField w).toNat = op.toNat) :
    encodeXkk op (xField w) (kkField w) = w := by
  rw [← BitVec.eq_of_toNat_eq hop, encodeXkk_fields]

/-- A word of format `X` from its first nibble and its trailing byte (R93). -/
theorem encodeXkk_eq_of_kk {op : Nibble} {kk : Byte} (hop : (opField w).toNat = op.toNat)
    (hkk : (kkField w).toNat = kk.toNat) : encodeXkk op (xField w) kk = w := by
  rw [← BitVec.eq_of_toNat_eq hkk, encodeXkk_eq hop]

/-- A word of format `XYN` from its first nibble (R93). -/
theorem encodeXyn_eq {op : Nibble} (hop : (opField w).toNat = op.toNat) :
    encodeXyn op (xField w) (yField w) (nField w) = w := by
  rw [← BitVec.eq_of_toNat_eq hop, encodeXyn_fields]

/-- A word of format `XY` from its first and its trailing nibble (R93). -/
theorem encodeXyn_eq_of_n {op n : Nibble} (hop : (opField w).toNat = op.toNat)
    (hn : (nField w).toNat = n.toNat) : encodeXyn op (xField w) (yField w) n = w := by
  rw [← BitVec.eq_of_toNat_eq hn, encodeXyn_eq hop]

theorem encode_decodeFamily0 (w : Word) : encode (decodeFamily0 w) = w := by
  unfold decodeFamily0
  split
  · next h => exact h.symm
  · split
    · next h => exact h.symm
    · rfl

theorem encode_decodeFamily8 (hop : (opField w).toNat = 8) : encode (decodeFamily8 w) = w := by
  unfold decodeFamily8
  split
  case h_10 => rfl
  all_goals exact encodeXyn_eq_of_n hop ‹_›

theorem encode_decodeFamilyE (hop : (opField w).toNat = 14) : encode (decodeFamilyE w) = w := by
  unfold decodeFamilyE
  split
  case h_3 => rfl
  all_goals exact encodeXkk_eq_of_kk hop ‹_›

theorem encode_decodeFamilyF (hop : (opField w).toNat = 15) : encode (decodeFamilyF w) = w := by
  unfold decodeFamilyF
  split
  case h_10 => rfl
  all_goals exact encodeXkk_eq_of_kk hop ‹_›

/-- Decoding loses no bit (R97). -/
theorem encode_decodeWord (w : Word) : encode (decodeWord w) = w := by
  unfold decodeWord
  split
  · exact encode_decodeFamily0 w
  · next hop => exact encodeNnn_eq hop
  · next hop => exact encodeNnn_eq hop
  · next hop => exact encodeXkk_eq hop
  · next hop => exact encodeXkk_eq hop
  · next hop =>
    split
    · next hn => exact encodeXyn_eq_of_n hop (congrArg BitVec.toNat hn)
    · rfl
  · next hop => exact encodeXkk_eq hop
  · next hop => exact encodeXkk_eq hop
  · next hop => exact encode_decodeFamily8 hop
  · next hop =>
    split
    · next hn => exact encodeXyn_eq_of_n hop (congrArg BitVec.toNat hn)
    · rfl
  · next hop => exact encodeNnn_eq hop
  · next hop => exact encodeNnn_eq hop
  · next hop => exact encodeXkk_eq hop
  · next hop => exact encodeXyn_eq hop
  · next hop => exact encode_decodeFamilyE hop
  · simp only [imp_false] at *
    exact encode_decodeFamilyF (by omega)

end

/-! ### Every well-formed instruction is what its encoding decodes to -/

theorem assigned_of_row {w : Word} {r : Row} (h : r.selects w = true ∧ r ∈ definedRows) : assigned w = true :=
  List.any_eq_true.mpr ⟨r, h.2, h.1⟩

/-- The encoding of every instruction but `Unknown` is a word some defined row selects (R96, R98). -/
theorem assigned_encode {i : Instr} (hi : ∀ w, i ≠ .unknown w) : assigned (encode i) = true := by
  cases i with
  | unknown w => exact absurd rfl (hi w)
  | cls => exact assigned_of_row (Laws.RowMatch.cls rfl)
  | ret => exact assigned_of_row (Laws.RowMatch.ret rfl)
  | jp nnn => exact assigned_of_row (Laws.RowMatch.jp nnn rfl)
  | call nnn => exact assigned_of_row (Laws.RowMatch.call nnn rfl)
  | seImm x kk => exact assigned_of_row (Laws.RowMatch.seImm x kk rfl)
  | sneImm x kk => exact assigned_of_row (Laws.RowMatch.sneImm x kk rfl)
  | seReg x y => exact assigned_of_row (Laws.RowMatch.seReg x y rfl)
  | ldImm x kk => exact assigned_of_row (Laws.RowMatch.ldImm x kk rfl)
  | addImm x kk => exact assigned_of_row (Laws.RowMatch.addImm x kk rfl)
  | ldReg x y => exact assigned_of_row (Laws.RowMatch.ldReg x y rfl)
  | orReg x y => exact assigned_of_row (Laws.RowMatch.orReg x y rfl)
  | andReg x y => exact assigned_of_row (Laws.RowMatch.andReg x y rfl)
  | xorReg x y => exact assigned_of_row (Laws.RowMatch.xorReg x y rfl)
  | addReg x y => exact assigned_of_row (Laws.RowMatch.addReg x y rfl)
  | sub x y => exact assigned_of_row (Laws.RowMatch.sub x y rfl)
  | shr x y => exact assigned_of_row (Laws.RowMatch.shr x y rfl)
  | subn x y => exact assigned_of_row (Laws.RowMatch.subn x y rfl)
  | shl x y => exact assigned_of_row (Laws.RowMatch.shl x y rfl)
  | sneReg x y => exact assigned_of_row (Laws.RowMatch.sneReg x y rfl)
  | ldI nnn => exact assigned_of_row (Laws.RowMatch.ldI nnn rfl)
  | jpV0 nnn => exact assigned_of_row (Laws.RowMatch.jpV0 nnn rfl)
  | rnd x kk => exact assigned_of_row (Laws.RowMatch.rnd x kk rfl)
  | drw x y n => exact assigned_of_row (Laws.RowMatch.drw x y n rfl)
  | skp x => exact assigned_of_row (Laws.RowMatch.skp x rfl)
  | sknp x => exact assigned_of_row (Laws.RowMatch.sknp x rfl)
  | ldVxDt x => exact assigned_of_row (Laws.RowMatch.ldVxDt x rfl)
  | ldVxK x => exact assigned_of_row (Laws.RowMatch.ldVxK x rfl)
  | ldDtVx x => exact assigned_of_row (Laws.RowMatch.ldDtVx x rfl)
  | ldStVx x => exact assigned_of_row (Laws.RowMatch.ldStVx x rfl)
  | addI x => exact assigned_of_row (Laws.RowMatch.addI x rfl)
  | ldF x => exact assigned_of_row (Laws.RowMatch.ldF x rfl)
  | ldB x => exact assigned_of_row (Laws.RowMatch.ldB x rfl)
  | ldMemVx x => exact assigned_of_row (Laws.RowMatch.ldMemVx x rfl)
  | ldVxMem x => exact assigned_of_row (Laws.RowMatch.ldVxMem x rfl)

/-- A word that no defined row selects decodes to `Unknown` (R98): whatever else it decoded to would encode to an
assigned word. -/
theorem decodeWord_of_not_assigned {w : Word} (hw : assigned w = false) : decodeWord w = .unknown w := by
  have hencode := encode_decodeWord w
  cases hd : decodeWord w with
  | unknown u => rw [hd] at hencode; exact congrArg Instr.unknown hencode
  | _ =>
    have hassigned : assigned (encode (decodeWord w)) = true := assigned_encode fun u hu => by simp [hd] at hu
    rw [hencode, hw] at hassigned
    contradiction

/-- Encoding loses no field (R102). -/
theorem decodeWord_encode {i : Instr} (hi : i.wellFormed = true) : decodeWord (encode i) = i := by
  cases i with
  | unknown w => exact decodeWord_of_not_assigned (by simpa [Instr.wellFormed, encode] using hi)
  | cls | ret => rfl
  | jp nnn | call nnn | ldI nnn | jpV0 nnn => simp [encode, decodeWord]
  | seImm x kk | sneImm x kk | ldImm x kk | addImm x kk | rnd x kk => simp [encode, decodeWord]
  | seReg x y | sneReg x y => simp [encode, decodeWord]
  | drw x y n => simp [encode, decodeWord]
  | ldReg x y | orReg x y | andReg x y | xorReg x y | addReg x y => simp [encode, decodeWord, decodeFamily8]
  | sub x y | shr x y | subn x y | shl x y => simp [encode, decodeWord, decodeFamily8]
  | skp x | sknp x => simp [encode, decodeWord, decodeFamilyE]
  | ldVxDt x | ldVxK x | ldDtVx x | ldStVx x => simp [encode, decodeWord, decodeFamilyF]
  | addI x | ldF x | ldB x | ldMemVx x | ldVxMem x => simp [encode, decodeWord, decodeFamilyF]

/-- Decoding two bytes is decoding the word they make, whatever follows (R66, R90). -/
theorem decode_bytesOfWord (w : Word) (rest : List Byte) :
    decode (bytesOfWord w ++ rest) = .ok (decodeWord w, rest) := by
  show Except.ok (decodeWord (wordOfBytes (highByte w) (lowByte w)), rest) = _
  rw [wordOfBytes_bytes]

/-- Settles O6: the two bytes put the word together again, and the word decodes to the instruction. -/
theorem bytesDecode : Obligations.BytesDecode := by
  intro i rest hi
  rw [decode_bytesOfWord, decodeWord_encode hi]

end Sys2Proof

/-! PROOF. Accesses to memory: the primitives (spec/20_memory.md R62 to R70) and the instructions that move bytes
between memory, registers and sprite rows (spec/43_memory_ops.md, spec/45_display_keys.md). -/

namespace Sys2Proof.Machine

/-! ### The primitives -/

/-- Settles O7: a read either returns the byte or raises. -/
theorem memReadRule : Obligations.MemReadRule := fun _ _ => ⟨memRead_done, memRead_raised⟩

/-- Settles O8: a write in the writable region is `Memory.set`, which keeps the canonical form. -/
theorem memWriteRule : Obligations.MemWriteRule := fun _ _ _ hs =>
  ⟨memWrite_protected, memWrite_outOfBounds,
    fun h1 h2 => ⟨_, memWrite_done h1 h2, rfl, Memory.wf_set hs h2, Memory.read_set hs⟩⟩

section
variable {s t : State} {a : Nat} {b : Byte}

/-- What is known of a write that goes through (R63). -/
theorem memWrite_inversion (h : memWrite a b s = .done () t) :
    512 ≤ a ∧ a < 4096 ∧ t = s.setMem (Memory.set s.mem a b) := by
  by_cases h1 : a < 512
  · rw [memWrite_protected h1] at h; cases h
  · by_cases h2 : a < 4096
    · rw [memWrite_done (by omega) h2] at h
      cases h
      exact ⟨by omega, h2, rfl⟩
    · rw [memWrite_outOfBounds (by omega)] at h; cases h

/-- What every address reads as after a write that goes through (R65). -/
theorem memWrite_read (hs : s.MemCanonical) (h : memWrite a b s = .done () t) (x : Nat) :
    Memory.read t.mem x = if x = a then b else Memory.read s.mem x := by
  obtain ⟨-, -, rfl⟩ := memWrite_inversion h
  exact Memory.read_set hs x

end

/-- Settles O9: both reads go through, and `memWrite_read` says what they return. -/
theorem readAfterWrite : Obligations.ReadAfterWrite := by
  intro s a b hs h1 h2
  have hw : memWrite a b s = _ := memWrite_done h1 h2
  refine ⟨_, hw, ?_, fun x hx hne => ?_⟩
  · rw [memRead_done h2, memWrite_read hs hw, if_pos rfl]
  · rw [memRead_done hx, memWrite_read hs hw, if_neg hne]

/-- Settles O11: the fetch reads both bytes after the write, of which one is the byte stored. -/
theorem storedByteIsFetched : Obligations.StoredByteIsFetched := by
  intro s t b a hs hw hpc
  have hread := memWrite_read hs hw
  obtain ⟨-, -, ht⟩ := memWrite_inversion hw
  have hpct : t.pc = s.pc := by rw [ht, State.setMem_pc]
  have hfetch := fetch_done (s := t) (by rw [hpct]; exact hpc)
  rw [hpct, hread, hread] at hfetch
  constructor
  · rintro rfl
    rwa [if_pos rfl, if_neg (by omega)] at hfetch
  · rintro rfl
    rwa [if_neg (by omega), if_pos rfl] at hfetch

/-! ### Instructions that store -/

section
variable {i : Instr} {s : State} {f : Flow Unit} {bs : List Byte} {a : Nat}

/-- An instruction whose operations end in a raise takes the fault (R246). -/
theorem raises_of_raised {c : FaultCode} {info : Nat} {t : State} (hi : exec i s = f.result)
    (hf : f = .raised (raise c info t)) : Raises i s c info t := by
  rw [Raises, hi, hf]; rfl

/-- Writes that stay in the writable region: the bytes stand from `a` upward, and nothing else changes. -/
theorem exec_writeBytes_done (hi : exec i s = (writeBytes bs a s).result) (hs : s.MemCanonical) (h1 : 512 ≤ a)
    (h2 : a + bs.length ≤ 4096) :
    ∃ t, exec i s = .next t ∧ OnlyMem s t ∧ (∀ k, (hk : k < bs.length) → Memory.read t.mem (a + k) = bs[k]) ∧
      ∀ x, ¬ (a ≤ x ∧ x < a + bs.length) → Memory.read t.mem x = Memory.read s.mem x := by
  have hread := Memory.read_setBytes bs hs h2
  refine ⟨s.setMem (Memory.setBytes s.mem a bs), by rw [hi, writeBytes_done bs h1 h2]; rfl, rfl, fun k hk => ?_,
    fun x hx => (hread x).trans (dif_neg hx)⟩
  refine ((hread (a + k)).trans (dif_pos (by omega))).trans ?_
  simp only [Nat.add_sub_cancel_left]

/-- Writes that begin below the boundary fault there (R63). -/
theorem exec_writeBytes_protected (hi : exec i s = (writeBytes bs a s).result) (h0 : bs ≠ []) (h : a < 512) :
    Raises i s .protectedRegion a s :=
  raises_of_raised hi (writeBytes_protected bs h0 h)

/-- Reading after storing only the bytes that stand below 4096. -/
theorem Memory.read_setBytes_take {m : Memory} (hm : Memory.wf m = true) (x : Nat) :
    Memory.read (Memory.setBytes m a (bs.take (4096 - a))) x =
      if h : a ≤ x ∧ x < a + bs.length ∧ x < 4096 then bs[x - a]'(by omega) else Memory.read m x := by
  by_cases ha : a ≤ 4096
  · rw [Memory.read_setBytes _ hm (by rw [List.length_take]; omega)]
    by_cases h : a ≤ x ∧ x < a + bs.length ∧ x < 4096
    · rw [dif_pos h, dif_pos (by rw [List.length_take]; omega), List.getElem_take]
    · rw [dif_neg h, dif_neg (by rw [List.length_take]; omega)]
  · rw [show 4096 - a = 0 by omega, dif_neg (by omega)]
    rfl

/-- Writes that leave memory fault at the first address that does not exist, with the bytes below 4096 stored
(R70). -/
theorem exec_writeBytes_outOfBounds (hi : exec i s = (writeBytes bs a s).result) (hs : s.MemCanonical) (h0 : bs ≠ [])
    (h1 : 512 ≤ a) (h2 : 4096 < a + bs.length) :
    ∃ t, Raises i s .outOfBounds (max a 4096) t ∧ OnlyMem s t ∧
      ∀ x, Memory.read t.mem x =
        if h : a ≤ x ∧ x < a + bs.length ∧ x < 4096 then bs[x - a]'(by omega) else Memory.read s.mem x :=
  ⟨_, raises_of_raised hi (writeBytes_outOfBounds bs h0 h1 h2), rfl, Memory.read_setBytes_take hs⟩

end

section
variable {s : State} {x : Nibble} {b : Byte}

theorem exec_ldB (s : State) (x : Nibble) :
    exec (.ldB x) s = (writeBytes (bcdDigits (s.reg x)) s.base s).result := rfl

@[simp] theorem bcdDigits_length : (bcdDigits b).length = 3 := rfl

theorem bcdDigits_ne_nil : bcdDigits b ≠ [] := nofun

/-- No digit is cut off by the width of a byte (R193). -/
theorem bcdDigits_toNat (b : Byte) :
    ((bcdDigits b)[0]).toNat = b.toNat / 100 ∧ ((bcdDigits b)[1]).toNat = b.toNat / 10 % 10 ∧
      ((bcdDigits b)[2]).toNat = b.toNat % 10 := by
  have hfits {d : Nat} (hd : d ≤ b.toNat) : (BitVec.ofNat 8 d).toNat = d := by
    rw [BitVec.toNat_ofNat, Nat.mod_eq_of_lt (Nat.lt_of_le_of_lt hd b.isLt)]
  exact ⟨hfits (by omega), hfits (by omega), hfits (by omega)⟩

end

/-- Settles O42: `LD B, Vx` is the writing of the three digits. -/
theorem ldBRule : Obligations.LdBRule := by
  intro s x hs
  have hi := exec_ldB s x
  refine ⟨fun h1 h2 => ?_, exec_writeBytes_protected hi bcdDigits_ne_nil,
    fun h => exec_writeBytes_outOfBounds hi hs bcdDigits_ne_nil (by omega) h⟩
  obtain ⟨t, ht, hframe, hin, hout⟩ := exec_writeBytes_done hi hs h1 h2
  obtain ⟨hundreds, tens, ones⟩ := bcdDigits_toNat (s.reg x)
  exact ⟨t, ht, hframe, (congrArg BitVec.toNat (hin 0 (by simp))).trans hundreds,
    (congrArg BitVec.toNat (hin 1 (by simp))).trans tens, (congrArg BitVec.toNat (hin 2 (by simp))).trans ones, hout⟩

section
variable {s : State} {x : Nibble}

theorem exec_ldMemVx (s : State) (x : Nibble) :
    exec (.ldMemVx x) s = (writeBytes (s.regsUpTo x) s.base s).result := rfl

@[simp] theorem regsUpTo_length : (s.regsUpTo x).length = x.toNat + 1 := by
  rw [State.regsUpTo, List.length_map, List.length_range]

theorem regsUpTo_ne_nil : s.regsUpTo x ≠ [] := by
  rw [← List.length_pos_iff, regsUpTo_length]; omega

/-- The byte at a place of the block is the register of that number (R194). -/
theorem regsUpTo_getElem (k : Nibble) (hk : k.toNat < (s.regsUpTo x).length) :
    (s.regsUpTo x)[k.toNat] = s.reg k := by
  simp only [State.regsUpTo, List.getElem_map, List.getElem_range, BitVec.ofNat_toNat, BitVec.setWidth_eq]

end

/-- Settles O43: `LD [I], Vx` is the writing of the registers up to `V[x]`. -/
theorem ldMemVxRule : Obligations.LdMemVxRule := by
  intro s x hs
  have hi := exec_ldMemVx s x
  have hlen := regsUpTo_length (s := s) (x := x)
  refine ⟨fun h1 h2 => ?_, exec_writeBytes_protected hi regsUpTo_ne_nil, fun h => ?_⟩
  · obtain ⟨t, ht, hframe, hin, hout⟩ := exec_writeBytes_done hi hs h1 (by omega)
    exact ⟨t, ht, hframe, fun k hk => (hin k.toNat (by omega)).trans (regsUpTo_getElem k _),
      fun a ha => hout a (by omega)⟩
  · obtain ⟨t, ht, hframe, hread⟩ := exec_writeBytes_outOfBounds hi hs regsUpTo_ne_nil (by omega) (by omega)
    refine ⟨t, ht, hframe, fun k hk hlt => ?_, fun a ha => (hread a).trans (dif_neg (by omega))⟩
    refine ((hread _).trans (dif_pos (by omega))).trans ?_
    simp only [Nat.add_sub_cancel_left]
    exact regsUpTo_getElem k _

/-! ### Instructions that load -/

theorem exec_ldVxMem (s : State) (x : Nibble) :
    exec (.ldVxMem x) s = (loadRegs (x.toNat + 1) 0 s.base s).result := rfl

/-- Settles O44: `LD Vx, [I]` is the loading of `x + 1` registers from `V[0]` on. -/
theorem ldVxMemRule : Obligations.LdVxMemRule := by
  intro s x
  have hi := exec_ldVxMem s x
  constructor
  · intro h
    obtain ⟨t, ht, hframe, hreg⟩ := loadRegs_done (s := s) (a := s.base) (x.toNat + 1) 0 (by omega) (by omega)
    refine ⟨t, by rw [hi, ht]; rfl, hframe, fun k => (hreg k).trans ?_⟩
    simp only [Nat.zero_le, true_and, Nat.zero_add, Nat.lt_add_one_iff, Nat.sub_zero]
  · intro h
    obtain ⟨t, ht, hframe, hreg⟩ := loadRegs_raised (s := s) (a := s.base) (x.toNat + 1) 0 (by omega) (by omega)
      (by omega)
    refine ⟨t, raises_of_raised hi ht, hframe, fun k => (hreg k).trans ?_⟩
    simp only [Nat.zero_le, true_and, Nat.zero_add, Nat.lt_add_one_iff, Nat.sub_zero]

/-- Settles O51: `DRW` reads its rows first, and nothing runs after a read that faults. -/
theorem drwFaults : Obligations.DrwFaults := by
  intro s x y n h0 h
  have hn : 0 < n.toNat := Nat.pos_of_ne_zero fun e => h0 (BitVec.eq_of_toNat_eq e)
  refine raises_of_raised (i := .drw x y n) rfl ?_
  rw [readBytes_raised n.toNat hn h]
  rfl

end Sys2Proof.Machine

/-! PROOF. The opcode map (spec/30_encoding.md): a word that a defined row selects decodes to an instruction of that
row. With the decoder against the encoder, above, this settles the statements about the encoding. -/

namespace Sys2Proof

/-! ### The decoder follows the rows -/

section
variable {w u : Word} {r : Row}

theorem row_decodeFamily8_congr (h : nField w = nField u) : (decodeFamily8 w).row = (decodeFamily8 u).row := by
  unfold decodeFamily8
  rw [h]
  split <;> rfl

theorem row_decodeFamilyE_congr (h : kkField w = kkField u) : (decodeFamilyE w).row = (decodeFamilyE u).row := by
  unfold decodeFamilyE
  rw [h]
  split <;> rfl

theorem row_decodeFamilyF_congr (h : kkField w = kkField u) : (decodeFamilyF w).row = (decodeFamilyF u).row := by
  unfold decodeFamilyF
  rw [h]
  split <;> rfl

/-- What the decoder chooses an operation by (R95): the first nibble, and with it the whole word in family 0, the
trailing nibble in families 5, 8 and 9, and the trailing byte in families E and F. -/
theorem row_decodeWord_congr (hop : opField w = opField u) (h0 : (opField u).toNat = 0 → w = u)
    (hn : (opField u).toNat ∈ [5, 8, 9] → nField w = nField u)
    (hkk : (opField u).toNat ∈ [14, 15] → kkField w = kkField u) :
    (decodeWord w).row = (decodeWord u).row := by
  unfold decodeWord
  rw [hop]
  split
  case h_1 h => rw [h0 h]
  case h_6 h => rw [hn (by simp [h])]; split <;> rfl
  case h_10 h => rw [hn (by simp [h])]; split <;> rfl
  case h_9 h => exact row_decodeFamily8_congr (hn (by simp [h]))
  case h_15 h => exact row_decodeFamilyE_congr (hkk (by simp [h]))
  case h_16 =>
    simp only [imp_false] at *
    exact row_decodeFamilyF_congr (hkk (by simp [show (opField u).toNat = 15 by omega]))
  all_goals rfl

/-- Words that a row selects agree under its mask. -/
theorem Row.and_mask_eq (h : r.selects w = true) (hu : r.selects u = true) : w &&& r.mask = u &&& r.mask :=
  (eq_of_beq h).trans (eq_of_beq hu).symm

/-- Fields that agree under a mask of ones are equal. -/
theorem eq_of_and_eq {k : Nat} {a b m : BitVec k} (h : a &&& m = b &&& m) (hm : m = .allOnes k) : a = b := by
  simpa only [hm, BitVec.and_allOnes] using h

theorem opField_and (a b : Word) : opField (a &&& b) = opField a &&& opField b := BitVec.extractLsb'_and

theorem nField_and (a b : Word) : nField (a &&& b) = nField a &&& nField b := BitVec.extractLsb'_and

theorem kkField_and (a b : Word) : kkField (a &&& b) = kkField a &&& kkField b := BitVec.extractLsb'_and

theorem selects_bits : ∀ r ∈ definedRows, r.selects r.bits = true := by decide

/-- The match word of a defined row, whose operand fields are zero, decodes to an instruction of the row. -/
theorem row_decodeWord_bits : ∀ r ∈ definedRows, (decodeWord r.bits).row = r := by decide

/-- The mask of a defined row covers what the decoder chooses by in the family of the row. -/
theorem mask_covers_choice : ∀ r ∈ definedRows, opField r.mask = .allOnes 4 ∧
    ((opField r.bits).toNat = 0 → r.mask = .allOnes 16) ∧
    ((opField r.bits).toNat ∈ [5, 8, 9] → nField r.mask = .allOnes 4) ∧
    ((opField r.bits).toNat ∈ [14, 15] → kkField r.mask = .allOnes 8) := by decide

/-- A word that a defined row selects decodes to an instruction of that row: it agrees with the match word in
what the decoder chooses by. -/
theorem row_decodeWord_of_selects (hr : r ∈ definedRows) (h : r.selects w = true) : (decodeWord w).row = r := by
  obtain ⟨hop, h0, hn, hkk⟩ := mask_covers_choice r hr
  have hmask := Row.and_mask_eq h (selects_bits r hr)
  refine (row_decodeWord_congr ?_ (fun hu => ?_) (fun hu => ?_) (fun hu => ?_)).trans (row_decodeWord_bits r hr)
  · exact eq_of_and_eq (by simpa only [opField_and] using congrArg opField hmask) hop
  · exact eq_of_and_eq hmask (h0 hu)
  · exact eq_of_and_eq (by simpa only [nField_and] using congrArg nField hmask) (hn hu)
  · exact eq_of_and_eq (by simpa only [kkField_and] using congrArg kkField hmask) (hkk hu)

theorem row_decodeWord_mem (h : assigned w = true) : (decodeWord w).row ∈ definedRows := by
  obtain ⟨r, hr, hsel⟩ := List.any_eq_true.mp h
  rwa [row_decodeWord_of_selects hr hsel]

/-- The fallback row is none of the defined ones (R98). -/
theorem row_unknown_not_mem : (Instr.unknown u).row ∉ definedRows := by
  show Row.mk 0 0 ∉ definedRows
  decide

/-- A word decodes to `Unknown` only where no defined row selects it (R98). -/
theorem not_assigned_of_decodeWord (h : decodeWord w = .unknown u) : assigned w = false := by
  cases ha : assigned w with
  | false => rfl
  | true =>
    have hmem := row_decodeWord_mem ha
    rw [h] at hmem
    exact absurd hmem row_unknown_not_mem

theorem wellFormed_decodeWord (w : Word) : (decodeWord w).wellFormed = true := by
  have hencode := encode_decodeWord w
  cases hd : decodeWord w with
  | unknown u =>
    rw [hd] at hencode
    have hu : u = w := hencode
    simp [Instr.wellFormed, hu, not_assigned_of_decodeWord hd]
  | _ => rfl

end

/-! ### The statements about the encoding -/

/-- Settles O2: each format keeps its fields, and an `Unknown` that is well-formed carries a word of no defined row. -/
theorem decodeOfEncode : Obligations.DecodeOfEncode := fun _ => decodeWord_encode

/-- Settles O3: each family puts its fields back, and an `Unknown` comes from a word that no defined row selects. -/
theorem encodeOfDecode : Obligations.EncodeOfDecode := fun w => ⟨encode_decodeWord w, wellFormed_decodeWord w⟩

/-- Settles O4: a selected word decodes to an instruction of the row, and any other to `Unknown`. -/
theorem unknownIffUnassigned : Obligations.UnknownIffUnassigned := fun _ =>
  ⟨not_assigned_of_decodeWord, decodeWord_of_not_assigned⟩

/-- Settles O5: the row that selects a word is the row of what the word decodes to. -/
theorem rowsDisjoint : Obligations.RowsDisjoint := fun _ _ _ hr hq hrsel hqsel =>
  (row_decodeWord_of_selects hr hrsel).symm.trans (row_decodeWord_of_selects hq hqsel)

/-- Settles O1, by running the decoder on the nine words. -/
theorem sampleWordsDecode : Obligations.SampleWordsDecode := by
  unfold Obligations.SampleWordsDecode
  decide

end Sys2Proof

/-! PROOF. The step cycle (spec/40_step_cycle.md R120 to R130): the three things a `step` trigger can do, and what each
leaves of the block and of the timers. -/

namespace Sys2Proof.Machine

section
variable {s t u : State} {i : Instr}

/-! ### What a `step` trigger does -/

theorem step_of_stepTrigger (h : s.stimulus.trigger = .step) : step s = mapNext State.consume (coreStep s.begin) := by
  unfold step transition
  rw [h]; rfl

/-- Outside `Running` the step only uses the stimulus up (R128). -/
theorem step_of_not_running (h : s.stimulus.trigger = .step) (hrun : s.run ≠ .running) :
    step s = .next s.begin.consume := by
  rw [step_of_stepTrigger h, coreStep, State.begin_run, if_neg hrun]; rfl

/-- The fault of the fetch or of the advance comes before the decoding (R121, R122). -/
theorem step_of_beyond_limit (h : s.stimulus.trigger = .step) (hrun : s.run = .running)
    (hlt : s.params.pcAdvanceLimit.value < s.pc.toNat + 2) :
    step s = .next (raise .outOfBounds (max s.pc.toNat 4096) s.begin).consume := by
  obtain ⟨hle, -⟩ | ⟨-, hf⟩ := fetchAdvance_cases (s := s.begin)
  · exact absurd hlt (Nat.not_lt.mpr hle)
  · rw [step_of_stepTrigger h, coreStep, State.begin_run, if_pos hrun, hf]; rfl

/-- A `step` trigger does nothing, faults before it decodes, or executes the decoded instruction. -/
theorem step_cases_of_stepTrigger (h : s.stimulus.trigger = .step) :
    step s = .next s.begin.consume ∨
    (∃ info, step s = .next (raise .outOfBounds info s.begin).consume) ∨
    (s.Executes ∧ step s = mapNext State.consume (exec (decodeWord s.wordAtPc) s.advanced)) := by
  by_cases hrun : s.run = .running
  · by_cases hle : s.pc.toNat + 2 ≤ s.params.pcAdvanceLimit.value
    · have hexec : s.Executes := ⟨hrun, h, hle⟩
      exact .inr (.inr ⟨hexec, step_of_executes hexec⟩)
    · exact .inr (.inl ⟨_, step_of_beyond_limit h hrun (Nat.lt_of_not_le hle)⟩)
  · exact .inl (step_of_not_running h hrun)

theorem mapNext_eq_next {f : State → State} {r : Result} (h : mapNext f r = .next t) :
    ∃ u, r = .next u ∧ t = f u := by
  cases r <;> cases h
  exact ⟨_, rfl, rfl⟩

/-! ### The timers after an instruction -/

/-- Both timers hold in `t` what they hold in `s`. -/
def KeepsTimers (s t : State) : Prop := t.dt = s.dt ∧ t.st = s.st

/-- Each timer holds in `t` what it holds in `s`, or `i` is the instruction that writes it and it holds the register
value that `i` takes from `s` (R211, R212). -/
def TimersWrittenBy (i : Instr) (s t : State) : Prop :=
  (t.dt = s.dt ∨ ∃ x, i = .ldDtVx x ∧ t.dt = s.reg x) ∧ (t.st = s.st ∨ ∃ x, i = .ldStVx x ∧ t.st = s.reg x)

theorem KeepsTimers.writtenBy (h : KeepsTimers s t) : TimersWrittenBy i s t := ⟨.inl h.1, .inl h.2⟩

/-- An ending touches no timer (R246). -/
theorem Ending.keepsTimers (h : Ending u t) : KeepsTimers u t := by rw [h.frame]; exact ⟨rfl, rfl⟩

/-- Where the first operation keeps the timers and the rest keeps them from every state, the sequence does. -/
theorem Flow.bind_keepsTimers {α β : Type} {f : Flow α} {k : α → State → Flow β} (hf : KeepsTimers s f.state)
    (hk : ∀ a t, KeepsTimers t (k a t).state) : KeepsTimers s (f.bind k).state := by
  cases f with
  | done a t => exact ⟨(hk a t).1.trans hf.1, (hk a t).2.trans hf.2⟩
  | raised t => exact hf

theorem Flow.timersWrittenBy {f : Flow Unit} (hf : KeepsTimers s f.state) (h : f.result = .next t) :
    TimersWrittenBy i s t := by
  obtain rfl : f.state = t := by simpa [f.result_eq_next_state] using h
  exact hf.writtenBy

theorem pop_keepsTimers (s : State) : KeepsTimers s (pop s).state := by
  by_cases h : 0 < s.sp.val
  · rw [pop_done h]; exact ⟨rfl, rfl⟩
  · rw [pop_raised (by omega)]; exact ⟨rfl, rfl⟩

theorem push_keepsTimers (w : Word) (s : State) : KeepsTimers s (push w s).state := by
  by_cases h : s.sp.val < 16
  · rw [push_done w h]; exact ⟨rfl, rfl⟩
  · rw [push_raised w (by omega)]; exact ⟨rfl, rfl⟩

theorem skipIf_keepsTimers (c : Bool) (s : State) : KeepsTimers s (skipIf c s).state := by
  obtain ⟨-, h⟩ | ⟨-, -, h⟩ | ⟨-, -, h⟩ := skipIf_cases (s := s) c <;> rw [h] <;> exact ⟨rfl, rfl⟩

theorem readBytes_keepsTimers (n a : Nat) (s : State) : KeepsTimers s (readBytes n a s).state := by
  by_cases h : n = 0 ∨ a + n ≤ 4096
  · rw [readBytes_done n h]; exact ⟨rfl, rfl⟩
  · rw [readBytes_raised n (by omega) (by omega)]; exact ⟨rfl, rfl⟩

theorem writeBytes_keepsTimers (bs : List Byte) (a : Nat) (s : State) : KeepsTimers s (writeBytes bs a s).state := by
  obtain ⟨m, -, he⟩ := writeBytes_ending bs a s
  exact he.keepsTimers

theorem loadRegs_keepsTimers (n k a : Nat) (s : State) : KeepsTimers s (loadRegs n k a s).state := by
  obtain ⟨v, h⟩ | ⟨v, x, h⟩ := loadRegs_cases (a := a) (s := s) n k <;> rw [h] <;> exact ⟨rfl, rfl⟩

theorem flagOp_keepsTimers (f : Byte → Byte → Byte × Bool) (x y : Nibble) (s : State) :
    KeepsTimers s (flagOp f x y s) := by
  rw [flagOp_frame]; exact ⟨rfl, rfl⟩

/-- Only `LD DT, Vx` and `LD ST, Vx` write a timer, each its own and with the register's value (R126, R211, R212). -/
theorem exec_timersWrittenBy (h : exec i s = .next t) : TimersWrittenBy i s t := by
  cases i with
  | ldDtVx x => cases h; exact ⟨.inr ⟨x, rfl, rfl⟩, .inl rfl⟩
  | ldStVx x => cases h; exact ⟨.inl rfl, .inr ⟨x, rfl, rfl⟩⟩
  | ret => exact Flow.timersWrittenBy (Flow.bind_keepsTimers (pop_keepsTimers s) fun _ _ => ⟨rfl, rfl⟩) h
  | call nnn => exact Flow.timersWrittenBy (Flow.bind_keepsTimers (push_keepsTimers s.pc s) fun _ _ => ⟨rfl, rfl⟩) h
  | seImm x k | sneImm x k | seReg x k | sneReg x k => exact Flow.timersWrittenBy (skipIf_keepsTimers _ s) h
  | skp x | sknp x => exact Flow.timersWrittenBy (skipIf_keepsTimers _ s) h
  | drw x y n =>
    exact Flow.timersWrittenBy (Flow.bind_keepsTimers (readBytes_keepsTimers _ _ s) fun _ _ => ⟨rfl, rfl⟩) h
  | ldB x | ldMemVx x => exact Flow.timersWrittenBy (writeBytes_keepsTimers _ _ s) h
  | ldVxMem x => exact Flow.timersWrittenBy (loadRegs_keepsTimers _ _ _ s) h
  | addReg x y | sub x y | shr x y | subn x y | shl x y => cases h; exact (flagOp_keepsTimers _ x y s).writtenBy
  | ldVxK x =>
    by_cases hkeys : s.inputs.keys = 0
    · rw [exec_ldVxK_up hkeys] at h
      cases h; exact KeepsTimers.writtenBy ⟨rfl, rfl⟩
    · rw [exec_ldVxK_down hkeys] at h
      cases h; exact KeepsTimers.writtenBy ⟨rfl, rfl⟩
  | _ => cases h; exact KeepsTimers.writtenBy ⟨rfl, rfl⟩

end

/-! ### The statements about the step -/

/-- Settles O19: a step that executes writes a timer only as its instruction does, and any other step leaves both. -/
theorem stepKeepsTimers : Obligations.StepKeepsTimers := by
  intro s t htrigger h
  obtain hstep | ⟨info, hstep⟩ | ⟨hexec, hstep⟩ := step_cases_of_stepTrigger htrigger
  · cases hstep.symm.trans h
    exact ⟨.inl (State.consume_dt _), .inl (State.consume_st _)⟩
  · cases hstep.symm.trans h
    exact ⟨.inl (State.consume_dt _), .inl (State.consume_st _)⟩
  · obtain ⟨u, hu, rfl⟩ := mapNext_eq_next (hstep.symm.trans h)
    rw [State.consume_dt, State.consume_st]
    obtain ⟨hdt, hst⟩ := exec_timersWrittenBy hu
    exact ⟨hdt.imp_right fun ⟨x, hi, hx⟩ => ⟨x, hexec, hi, hx⟩, hst.imp_right fun ⟨x, hi, hx⟩ => ⟨x, hexec, hi, hx⟩⟩

/-- Settles O23: what keeps the parameters is a next state (log entry 12). -/
theorem everyTransitionAnswers : Obligations.EveryTransitionAnswers := fun s =>
  have ⟨t, ht, _⟩ := step_keepsParams s
  ⟨t, ht⟩

/-- Settles O26: the jump puts the program counter back to where it stood before the advance. -/
theorem endOfRunStays : Obligations.EndOfRunStays := by
  intro s ⟨hrun, hle, nnn, hd, hnnn⟩ htrigger
  have hpc : zextAddr nnn = s.pc := BitVec.eq_of_toNat_eq ((zextAddr_toNat nnn).trans hnnn)
  have hstep : step s = .next (s.advanced.setPc s.pc).consume := by
    rw [step_of_executes ⟨hrun, htrigger, hle⟩, hd, ← hpc]; rfl
  refine ⟨_, hstep, SameBlock.trans ?_ (sameBlock_consume _), State.consume_events _⟩
  exact rfl

/-- Settles O15: `step_of_executes`, for the instruction named. -/
theorem stepRunsDecoded : Obligations.StepRunsDecoded := by
  rintro s i hexec rfl
  exact step_of_executes hexec

/-- Settles O16: the fault names the first address at or above the program counter that does not exist. -/
theorem fetchFaults : Obligations.FetchFaults := by
  intro s hrun htrigger hlt
  have hinfo : max s.pc.toNat 4096 = if s.pc.toNat < 4096 then 4096 else s.pc.toNat := by split <;> omega
  refine ⟨_, step_of_beyond_limit htrigger hrun hlt, ?_⟩
  rw [hinfo, State.consume_run, State.consume_fault, State.consume_events]
  refine ⟨rfl, rfl, rfl, SameBlock.trans ?_ (sameBlock_consume _)⟩
  exact rfl

/-- Settles O17: such a step only empties the outputs and uses the stimulus up. -/
theorem stepOutsideRunning : Obligations.StepOutsideRunning := fun s hrun htrigger =>
  ⟨_, step_of_not_running htrigger hrun, (sameBlock_begin s).trans (sameBlock_consume _), State.consume_events _⟩

/-- Settles O55: the event is the whole effect of an unassigned word. -/
theorem unknownRule : Obligations.UnknownRule := fun _ _ => ⟨_, rfl, rfl, rfl⟩

end Sys2Proof.Machine

/-! PROOF. Control flow (spec/41_control_flow.md) and the key skips (spec/45_display_keys.md): subroutines, jumps and
conditional skips, each from the law of the shared operation it runs. -/

namespace Sys2Proof.Machine

/-! ### Subroutines and jumps -/

section
variable {s : State}

/-- `CALL` with room (R142). -/
theorem exec_call_done (nnn : Addr12) (h : s.sp.val < 16) :
    exec (.call nnn) s = .next { s with
      pc := zextAddr nnn, stack := s.stack.set s.sp.val s.pc h, sp := ⟨s.sp.val + 1, by omega⟩ } := by
  show execCall nnn s = _
  rw [execCall, push_done s.pc h]; rfl

/-- `RET` with a return address held (R140). -/
theorem exec_ret_done (h : 0 < s.sp.val) :
    exec .ret s = .next { s with
      pc := s.stack[s.sp.val - 1]'(by omega), sp := ⟨s.sp.val - 1, by omega⟩ } := by
  show execRet s = _
  rw [execRet, pop_done h]; rfl

end

/-- Settles O31: the slot `RET` reads is the one `CALL` wrote. -/
theorem callThenRet : Obligations.CallThenRet := by
  intro s nnn h
  refine ⟨_, _, exec_call_done nnn h, exec_ret_done (Nat.succ_pos _), ?_, rfl⟩
  exact Vector.getElem_set_self h

/-- Settles O29: `RET` jumps to what it pops. -/
theorem retRule : Obligations.RetRule := by
  intro s
  refine ⟨fun h => ⟨_, exec_ret_done h, rfl, rfl, rfl, rfl⟩, fun h => ?_⟩
  refine raises_of_raised (i := .ret) rfl ?_
  rw [pop_raised h]; rfl

/-- Settles O30: `CALL` writes the slot `SP` names and no other. -/
theorem callRule : Obligations.CallRule := by
  intro s nnn
  constructor
  · intro h
    exact ⟨_, exec_call_done nnn h, zextAddr_toNat nnn, rfl, Vector.getElem_set_self h,
      fun k hk hne => Vector.getElem_set_ne h hk hne.symm, rfl⟩
  · intro h
    refine raises_of_raised (i := .call nnn) rfl ?_
    rw [push_raised s.pc h]; rfl

/-- Settles O32: neither target is cut off by the width of the program counter. -/
theorem jumpRule : Obligations.JumpRule := fun s nnn =>
  ⟨⟨_, rfl, zextAddr_toNat nnn, rfl⟩, ⟨_, rfl, zextAddr_add_zextByte_toNat nnn (s.reg 0), rfl⟩⟩

/-! ### Conditional skips -/

section
variable {s : State} {i : Instr} {c : Bool} {p : Prop}

/-- An instruction that runs `skipIf` on a condition skips on it (R148). -/
theorem skips_of_skipIf (hi : exec i s = (skipIf c s).result) (hc : c = true ↔ p) : Skips i p s := by
  refine ⟨fun hp => ?_, fun hp hle => ?_, fun hp hlt => ?_⟩
  · rw [hi, Bool.eq_false_iff.mpr (hp ∘ hc.mp)]; rfl
  · have hl := s.params.pcAdvanceLimit.value_bounds
    refine ⟨s.setPc (BitVec.ofNat 16 (s.pc.toNat + 2)), ?_, ?_, rfl⟩
    · rw [hi, hc.mpr hp, skipIf_true, advancePC_done hle, Flow.result_done]
    · rw [State.setPc_pc, BitVec.toNat_ofNat, Nat.mod_eq_of_lt (by omega)]
  · exact raises_of_raised hi (by rw [hc.mpr hp, skipIf_true, advancePC_raised hlt])

end

/-- Settles O33: each of the four runs `skipIf` on its comparison. -/
theorem registerSkips : Obligations.RegisterSkips := fun _ _ _ _ =>
  ⟨skips_of_skipIf rfl beq_iff_eq, skips_of_skipIf rfl bne_iff_ne,
    skips_of_skipIf rfl beq_iff_eq, skips_of_skipIf rfl bne_iff_ne⟩

theorem lowNibble_toNat (b : Byte) : (lowNibble b).toNat = b.toNat % 16 := by
  rw [lowNibble, BitVec.extractLsb'_toNat, Nat.shiftRight_zero]

/-- The level a key skip samples is that of the key the low nibble names (R226). -/
theorem keyDown_lowNibble (s : State) (b : Byte) :
    s.keyDown (lowNibble b) = s.inputs.keys.getLsbD (b.toNat % 16) := by
  rw [State.keyDown, lowNibble_toNat]

/-- Settles O52: both run `skipIf` on the level of that key. -/
theorem keySkips : Obligations.KeySkips := by
  intro s x
  rw [← keyDown_lowNibble]
  exact ⟨skips_of_skipIf rfl Iff.rfl, skips_of_skipIf rfl (iff_of_eq (Bool.not_eq_true' _))⟩

end Sys2Proof.Machine

/-! PROOF. Register and ALU instructions (spec/42_register_ops.md): each sets one register, or runs the flag-setting
operation on a computation whose result and flag are read as arithmetic on unsigned numbers. -/

namespace Sys2Proof.Machine

/-! ### Results and flags as arithmetic (R161, R168 to R172) -/

section
variable (a b : Byte)

theorem ofNat_mod_256 (n : Nat) : BitVec.ofNat 8 (n % 256) = BitVec.ofNat 8 n :=
  BitVec.eq_of_toNat_eq (by rw [BitVec.toNat_ofNat, BitVec.toNat_ofNat]; exact Nat.mod_mod n 256)

theorem add_eq_ofNat : a + b = BitVec.ofNat 8 ((a.toNat + b.toNat) % 256) := by
  rw [ofNat_mod_256, BitVec.add_def]

theorem sub_eq_ofNat : a - b = BitVec.ofNat 8 ((a.toNat + 256 - b.toNat) % 256) := by
  rw [ofNat_mod_256, BitVec.sub_def]
  exact congrArg (BitVec.ofNat 8) (by have := b.isLt; omega)

theorem shiftRightOne_result : (shiftRightOne a).1 = BitVec.ofNat 8 (a.toNat / 2) := by
  refine BitVec.eq_of_toNat_eq ?_
  simp only [shiftRightOne, BitVec.toNat_ushiftRight, BitVec.toNat_ofNat, Nat.shiftRight_eq_div_pow]
  omega

theorem shiftRightOne_flag_iff : (shiftRightOne a).2 = true ↔ a.toNat % 2 = 1 := by
  simp [shiftRightOne, BitVec.getLsbD, Nat.testBit_zero]

theorem shiftLeftOne_result : (shiftLeftOne a).1 = BitVec.ofNat 8 (a.toNat * 2 % 256) := by
  refine BitVec.eq_of_toNat_eq ?_
  simp only [shiftLeftOne, BitVec.toNat_shiftLeft, BitVec.toNat_ofNat, Nat.shiftLeft_eq]
  omega

theorem shiftLeftOne_flag_iff : (shiftLeftOne a).2 = true ↔ 128 ≤ a.toNat := by
  rw [shiftLeftOne, ← BitVec.msb_eq_getLsbD_last a, BitVec.msb_eq_decide, decide_eq_true_iff]

end

/-- The operand `SHIFT_SOURCE` selects (R170). -/
theorem shiftOperand_eq {source : ShiftSource} {a b d : Byte} (hx : source = .vx → d = a)
    (hy : source = .vy → d = b) : shiftOperand source a b = d := by
  cases source with
  | vx => exact (hx rfl).symm
  | vy => exact (hy rfl).symm

/-! ### The flag-setting operation -/

section
variable {s : State} {i : Instr} {f : Byte → Byte → Byte × Bool} {x y : Nibble} {b : Byte} {c : Prop}

/-- The result survives in `V[x]` unless the flag is written over it (R167). -/
theorem flagOp_reg_self (h : x ≠ 15 ∨ s.params.vfWriteOrder = .flagThenResult) :
    (flagOp f x y s).reg x = (f (s.reg x) (s.reg y)).1 := by
  rw [flagOp_reg]
  obtain hx | ho := h
  · rw [if_pos rfl, if_neg hx, if_pos rfl, ite_self]
  · rw [if_pos ho, if_pos rfl]

/-- The flag survives in register 15 unless the result is written over it (R167). -/
theorem flagOp_vf (h : x ≠ 15 ∨ s.params.vfWriteOrder = .resultThenFlag) :
    (flagOp f x y s).vf = flagByte (f (s.reg x) (s.reg y)).2 := by
  rw [State.vf, flagOp_reg]
  obtain hx | ho := h
  · rw [if_pos rfl, if_neg hx.symm, if_pos rfl, ite_self]
  · rw [if_neg (by rw [ho]; nofun), if_pos rfl]

theorem flagOp_reg_of_ne {z : Nibble} (hx : z ≠ x) (h15 : z ≠ 15) : (flagOp f x y s).reg z = s.reg z := by
  rw [flagOp_reg, if_neg hx, if_neg h15, if_neg h15, if_neg hx, ite_self]

/-- An instruction that runs the flag-setting operation writes the result and the flag it computes (R167). -/
theorem writesFlagged_of_flagOp (hi : exec i s = .next (flagOp f x y s)) (hb : (f (s.reg x) (s.reg y)).1 = b)
    (hc : (f (s.reg x) (s.reg y)).2 = true ↔ c) : WritesFlagged i s x b c := by
  refine ⟨_, hi, fun h => (flagOp_reg_self h).trans hb, fun h => ⟨fun h1 => ?_, fun h0 => ?_⟩,
    fun _ hx h15 => flagOp_reg_of_ne hx h15, flagOp_frame s f x y⟩
  · rw [flagOp_vf h, hc.mpr h1, flagByte_true]
  · rw [flagOp_vf h, Bool.eq_false_iff.mpr (h0 ∘ hc.mp), flagByte_false]

end

/-! ### The instructions -/

/-- Settles O34: the instruction sets one register. -/
theorem ldImmRule : Obligations.LdImmRule := fun _ _ _ => writesReg_of_setReg rfl

/-- Settles O35: the sum of bytes is the sum of their values modulo 256. -/
theorem addImmRule : Obligations.AddImmRule := by
  intro s x kk
  rw [← add_eq_ofNat]
  exact writesReg_of_setReg rfl

/-- Settles O36: each of the four sets one register, from the registers before. -/
theorem loadAndBitwiseRule : Obligations.LoadAndBitwiseRule := fun _ _ _ =>
  ⟨writesReg_of_setReg rfl, writesReg_of_setReg rfl, writesReg_of_setReg rfl, writesReg_of_setReg rfl⟩

/-- Settles O37: the flag is the carry out of the sum. -/
theorem addRegRule : Obligations.AddRegRule := fun _ _ _ =>
  writesFlagged_of_flagOp (f := addWithCarry) rfl (ofNat_mod_256 _).symm decide_eq_true_iff

/-- Settles O38: the two differ in the order of the operands only. -/
theorem subtractRule : Obligations.SubtractRule := fun _ _ _ =>
  ⟨writesFlagged_of_flagOp (f := subWithBorrow) rfl (sub_eq_ofNat _ _) decide_eq_true_iff,
    writesFlagged_of_flagOp (f := fun a b => subWithBorrow b a) rfl (sub_eq_ofNat _ _) decide_eq_true_iff⟩

/-- Settles O39: both shift the operand `SHIFT_SOURCE` selects. -/
theorem shiftRule : Obligations.ShiftRule := by
  intro s x y a hx hy
  obtain rfl := shiftOperand_eq hx hy
  exact ⟨writesFlagged_of_flagOp rfl (shiftRightOne_result _) (shiftRightOne_flag_iff _),
    writesFlagged_of_flagOp rfl (shiftLeftOne_result _) (shiftLeftOne_flag_iff _)⟩

end Sys2Proof.Machine

/-! PROOF. The index register and the block round trip (spec/43_memory_ops.md): `I` set to a value read as arithmetic, and
a store followed by a load, each by the rule of its instruction. -/

namespace Sys2Proof.Machine

/-! ### The block round trip -/

/-- The memory-only frame keeps the base of a data access, whatever register file is put in (R194). -/
theorem OnlyMem.base_withRegs {s t : State} (h : OnlyMem s t) (v : Vector Byte 16) :
    { t with v := v }.base = s.base :=
  (congrArg State.base h :)

/-- Settles O45: the store leaves `I`, so the load reads the addresses the registers were stored at. -/
theorem blockRoundTrip : Obligations.BlockRoundTrip := by
  intro s x v hs h1 h2
  obtain ⟨t, ht, hframe, hstored, -⟩ := (ldMemVxRule s x hs).1 h1 h2
  have hbase := hframe.base_withRegs v
  obtain ⟨u, hu, -, hloaded⟩ := (ldVxMemRule { t with v := v } x).1 (by rwa [hbase])
  refine ⟨t, u, ht, hu, fun k hk => ?_⟩
  calc u.reg k = Memory.read t.mem (s.base + k.toNat) := by rw [hloaded, if_pos hk, hbase]
    _ = s.reg k := hstored k hk

/-! ### The index register -/

section
variable {s : State} {i : Instr} {w : Word} {n : Nat}

/-- An instruction that sets `I` changes nothing else. -/
theorem onlyIndex_of_setI (hi : exec i s = .next (s.setI w)) (hw : w.toNat = n) :
    ∃ t, exec i s = .next t ∧ t.i.toNat = n ∧ OnlyIndex s t :=
  ⟨s.setI w, hi, hw, rfl⟩

/-- The sum wraps at the width of `I` (R191). -/
theorem add_zextByte_toNat (w : Word) (b : Byte) : (w + zextByte b).toNat = (w.toNat + b.toNat) % 65536 := by
  rw [BitVec.toNat_add, zextByte_toNat]

/-- No glyph address is cut off by the width of `I` (R192). -/
theorem glyphAddress_lowNibble_toNat (b : Byte) : (glyphAddress (lowNibble b)).toNat = 5 * (b.toNat % 16) := by
  rw [glyphAddress, lowNibble_toNat, BitVec.toNat_ofNat]
  exact Nat.mod_eq_of_lt (show 5 * (b.toNat % 16) < 2 ^ 16 by omega)

end

/-- Settles O40: the address is zero-extended. -/
theorem ldIRule : Obligations.LdIRule := fun _ nnn => onlyIndex_of_setI rfl (zextAddr_toNat nnn)

/-- Settles O41: `ADD I` sets the wrapped sum, `LD F` the glyph's address. -/
theorem indexArithmeticRule : Obligations.IndexArithmeticRule := fun s x =>
  ⟨onlyIndex_of_setI rfl (add_zextByte_toNat s.i (s.reg x)),
    onlyIndex_of_setI rfl (glyphAddress_lowNibble_toNat (s.reg x))⟩

end Sys2Proof.Machine

/-! PROOF. The timer instructions (spec/44_timer_random.md): the reading one is a register write, the writing ones set
their timer and emit its event. -/

namespace Sys2Proof.Machine

/-- Settles O46: the instruction sets one register, from the delay timer. -/
theorem readDelayRule : Obligations.ReadDelayRule := fun _ _ => writesReg_of_setReg rfl

/-- Settles O47: each is the setting of its timer followed by `emit`, and neither touches another field. -/
theorem writeTimerRule : Obligations.WriteTimerRule := fun _ _ => ⟨rfl, rfl⟩

end Sys2Proof.Machine

/-! PROOF. The display instructions (spec/45_display_keys.md): `CLS` emits its request, and `DRW` whose rows can be read
sets the flag register to the collision of those rows. -/

namespace Sys2Proof.Machine

/-! ### Clear -/

/-- Settles O49: the instruction is `emit`, which touches the event record only. -/
theorem clsRule : Obligations.ClsRule := fun s => ⟨s.emit .clearRequest, rfl, rfl, rfl⟩

/-! ### Draw -/

/-- The rows of the sprite `DRW` draws: the bytes from `I` upward (R221). -/
def State.spriteRows (s : State) (n : Nibble) : List Byte :=
  (List.range n.toNat).map fun r => Memory.read s.mem (s.base + r)

section
variable {s : State} {x y n : Nibble}

@[simp] theorem spriteRows_length : (s.spriteRows n).length = n.toNat := by
  rw [State.spriteRows, List.length_map, List.length_range]

@[simp] theorem spriteRows_getElem (r : Nat) (h : r < (s.spriteRows n).length) :
    (s.spriteRows n)[r] = Memory.read s.mem (s.base + r) := by
  simp only [State.spriteRows, List.getElem_map, List.getElem_range]

/-- The sprite collides where a set pixel of a row in memory lies over a set display pixel (R221). -/
theorem collision_spriteRows_iff (ox oy : Nat) :
    collision s ox oy (s.spriteRows n) = true ↔
      ∃ r c, r < n.toNat ∧ c < 8 ∧ (Memory.read s.mem (s.base + r)).getLsbD (7 - c) = true ∧
        s.inputs.display.contains (ox + c, oy + r) = true := by
  simp only [collision_iff, spriteRows_getElem, spriteRows_length, exists_prop, State.dispPixel]

/-- `DRW` whose rows can be read, or that has none (R222): `VF` is the collision, computed from the registers before it
is written. -/
theorem exec_drw_done (h : n.toNat = 0 ∨ s.base + n.toNat ≤ 4096) :
    exec (.drw x y n) s =
      .next ((s.setReg 15 (flagByte (collision s (s.reg x).toNat (s.reg y).toNat (s.spriteRows n)))).emit
        (.drawRequest (s.reg x) (s.reg y) (s.spriteRows n))) := by
  rw [show exec (.drw x y n) s = execDrw x y n s from rfl, execDrw, readBytes_done n.toNat h]
  rfl

end

theorem flagByte_one_or_zero (c : Bool) : flagByte c = 1 ∨ flagByte c = 0 := by
  cases c with
  | false => exact .inr flagByte_false
  | true => exact .inl flagByte_true

/-- Settles O50: `exec_drw_done` is the state after, and the flag is 1 exactly on a collision of the rows. -/
theorem drwRule : Obligations.DrwRule := by
  intro s x y n h
  have hrows : n.toNat = 0 ∨ s.base + n.toNat ≤ 4096 := h.imp_left (congrArg BitVec.toNat)
  refine ⟨_, s.spriteRows n, exec_drw_done hrows, rfl, rfl, ?_⟩
  rw [State.vf, State.emit_reg, State.reg_setReg_self]
  exact ⟨flagByte_one_or_zero _, (flagByte_eq_one _).trans (collision_spriteRows_iff _ _),
    fun k hk => State.reg_setReg_of_ne s 15 k _ hk, rfl⟩

end Sys2Proof.Machine

/-! PROOF. The run states and the faults (spec/60_exceptions.md R240 to R256, spec/70_reset_and_hazards.md R274, R275):
what the tick and `LoadImage` do in each run state, and that an instruction moves `RUN` and `FAULT` together or not at
all. -/

namespace Sys2Proof.Machine

section
variable {s t u : State} {i : Instr} {bytes : List Byte}

/-! ### Using the stimulus up -/

theorem SameBlock.consume (h : SameBlock s t) : SameBlock s t.consume := h.trans (sameBlock_consume t)

/-! ### The tick -/

/-- A transition whose trigger is the tick. -/
theorem step_tick (h : s.stimulus.trigger = .tick) : step s = .next (tick s.begin).consume := by
  unfold step transition
  rw [h]; rfl

theorem tick_of_running (h : s.run = .running) : tick s = (s.setDt (countDown s.dt)).setSt (countDown s.st) := by
  rw [tick, if_pos h]

theorem tick_of_not_running (h : s.run ≠ .running) : tick s = s := by rw [tick, if_neg h]

/-- Counting down is subtraction on the natural numbers, which stays at 0 (R256). -/
theorem countDown_toNat (b : Byte) : (countDown b).toNat = b.toNat - 1 := by
  unfold countDown
  split
  · next h => rw [h]; rfl
  · next h => bv_omega

/-- Neither the running nor the idle tick emits (R256). -/
theorem tick_events (s : State) : (tick s).events = s.events := by
  by_cases h : s.run = .running
  · rw [tick_of_running h, State.setSt_events, State.setDt_events]
  · rw [tick_of_not_running h]

/-! ### The image -/

/-- A transition whose trigger is `LoadImage`. -/
theorem step_loadImage (h : s.stimulus.trigger = .loadImage bytes) :
    step s = .next (loadImage bytes s.begin).consume := by
  unfold step transition
  rw [h]; rfl

/-- An image that fits is stored and starts the run (R274). -/
theorem loadImage_accepted (hoff : s.run = .poweredOff) (hlen : bytes.length ≤ 3584) :
    loadImage bytes s = { s with mem := Memory.setBytes s.mem 512 bytes, run := .running } := by
  rw [loadImage, if_pos hoff]; exact if_neg (Nat.not_lt.mpr hlen)

/-- An image that does not fit is only reported (R275). -/
theorem loadImage_rejected (hoff : s.run = .poweredOff) (hlen : 3584 < bytes.length) :
    loadImage bytes s = { s with hostReport := some ⟨.imageTooLarge, bytes.length⟩ } := by
  rw [loadImage, if_pos hoff]; exact if_pos hlen

theorem loadImage_of_not_off (h : s.run ≠ .poweredOff) : loadImage bytes s = s := by rw [loadImage, if_neg h]

/-- No image emits an event: the report of a rejected one is no event (R274). -/
theorem loadImage_events (bytes : List Byte) (s : State) : (loadImage bytes s).events = s.events := by
  by_cases hoff : s.run = .poweredOff
  · by_cases hlen : bytes.length ≤ 3584
    · rw [loadImage_accepted hoff hlen]
    · rw [loadImage_rejected hoff (Nat.lt_of_not_le hlen)]
  · rw [loadImage_of_not_off hoff]

/-! ### `RUN` and `FAULT` after an instruction -/

/-- What an instruction writes before it ends is neither `RUN` nor `FAULT` (R42, R43). -/
theorem Update.run_fault_eq (h : Update i s u) : u.run = s.run ∧ u.fault = s.fault := by
  cases h <;> exact ⟨rfl, rfl⟩

/-- An ending leaves `RUN` and `FAULT`, or it is the taking of a fatal fault (R246). -/
theorem Ending.run_fault_cases (h : Ending u t) :
    (t.run = u.run ∧ t.fault = u.fault) ∨ ∃ c info, c.IsFatal ∧ t = raise c info u := by
  cases h with
  | quiet | emits e => exact .inl ⟨rfl, rfl⟩
  | faults c info hc => exact .inr ⟨c, info, hc, rfl⟩

end

/-! ### The statements about run states and faults -/

/-- Settles O21: `loadImage` in its three cases, and the reading rule of stored sequences for the accepted image. -/
theorem loadImageRule : Obligations.LoadImageRule := by
  intro s bytes hmem htrigger
  refine ⟨_, step_loadImage htrigger, ?_, fun hoff hlen => ?_, fun hoff hlen => ?_, fun hon => ?_⟩
  · rw [State.consume_events, loadImage_events, State.begin_events]
  · rw [loadImage_accepted (s := s.begin) hoff hlen, State.consume_run, State.consume_mem, State.consume_hostReport]
    exact ⟨rfl, rfl, SameBlock.consume rfl, Memory.read_setBytes bytes hmem (by omega)⟩
  · rw [loadImage_rejected (s := s.begin) hoff hlen, State.consume_hostReport]
    exact ⟨SameBlock.consume rfl, rfl⟩
  · rw [loadImage_of_not_off (s := s.begin) hon, State.consume_hostReport]
    exact ⟨(sameBlock_begin s).consume, rfl⟩

/-- Settles O22: the step and the tick do nothing outside `Running`, and no image is taken outside `PoweredOff`. -/
theorem haltedUntilReset : Obligations.HaltedUntilReset := by
  intro s hrun hreset
  have hidle : step s = .next s.begin.consume := by
    have notRunning : s.run ≠ .running := by rw [hrun]; nofun
    have notOff : s.run ≠ .poweredOff := by rw [hrun]; nofun
    cases htrigger : s.stimulus.trigger with
    | reset => exact absurd htrigger hreset
    | loadImage bytes => rw [step_loadImage htrigger, loadImage_of_not_off (s := s.begin) notOff]
    | step => exact step_of_not_running htrigger notRunning
    | tick => rw [step_tick htrigger, tick_of_not_running (s := s.begin) notRunning]
  exact ⟨_, hidle, (sameBlock_begin s).consume, State.consume_events _⟩

/-- Settles O25: an instruction's update leaves `RUN` and `FAULT`, so they change only where its ending is a fault. -/
theorem faultsAreTaken : Obligations.FaultsAreTaken := by
  intro i s t h
  obtain ⟨u, hu, he⟩ := exec_inversion h
  obtain ⟨hrun, hfault⟩ := hu.run_fault_eq
  obtain ⟨hrun', hfault'⟩ | ⟨c, info, hc, rfl⟩ := he.run_fault_cases
  · exact .inl ⟨hrun'.trans hrun, hfault'.trans hfault⟩
  · exact .inr ⟨rfl, rfl, hc⟩

/-- Settles O18: in `Running` each timer is counted down and nothing else is written; outside it `tick` is the
identity. -/
theorem tickRule : Obligations.TickRule := by
  intro s htrigger
  refine ⟨_, step_tick htrigger, ?_, fun hrun => ?_, fun hrun => ?_⟩
  · rw [State.consume_events, tick_events, State.begin_events]
  · rw [tick_of_running (s := s.begin) hrun, State.consume_dt, State.consume_st]
    exact ⟨countDown_toNat s.dt, countDown_toNat s.st, SameBlock.consume rfl⟩
  · rw [tick_of_not_running (s := s.begin) hrun]
    exact (sameBlock_begin s).consume

end Sys2Proof.Machine
